-- ==== Sys2Proof/Word.lean ====
section
/-! DEFINITION. The word types of the block (00_scope.md R10, R13): every host-visible register and every buffer
element is W = 32 bits wide, a symbol is 8 bits, and a bit string is an ordered sequence of bits, position 1 first. -/

namespace Sys2Proof

/-- A register or buffer element, W = 32 bits (00_scope.md R10). -/
abbrev Word := BitVec 32

/-- A symbol of a string, 8 bits (30_encoding.md R84). -/
abbrev Byte := BitVec 8

/-- A bit; `true` is 1 and `false` is 0. -/
abbrev Bit := Bool

/-- A bit string; the head of the list is position 1 (00_scope.md R13). -/
abbrev BitString := List Bit

/-- A count, length or position as a host reads it (00_scope.md R10). -/
abbrev Word.ofCount (n : Nat) : Word := BitVec.ofNat 32 n

end Sys2Proof
end

