-- ==== Sys2Proof/Syntax.lean ====
section
/-! DEFINITION. The syntax of the block's commands and of the host's accesses: the two operations of the opcode table
(00_scope.md R2), the commands a CTRL write can be (30_encoding.md R87), the register and buffer names
(10_state.md R24, 20_memory.md R60) and the host notation (30_encoding.md R92). -/

namespace Sys2Proof

/-- The operations of spec/opcode_table.json (00_scope.md R2). Neither has an operand field: both read IN_LEN and
IN_BUF (30_encoding.md R83), and the ignored bits of the command word carry nothing (R90). -/
inductive Instr where
  | encode
  | decode
deriving DecidableEq, Repr

/-- What a CTRL write asks for (30_encoding.md R87). -/
inductive Command where
  /-- START with a defined OP. -/
  | start (i : Instr)
  /-- START with OP 0b00 or 0b11, refused at completion with ILLEGAL_OP (60_exceptions.md R274). -/
  | startReserved (op : BitVec 2)
  /-- START clear: only CTRL.OP is written (30_encoding.md R81). -/
  | setOp (op : BitVec 2)
deriving DecidableEq, Repr

/-- The register space (10_state.md R24): twelve registers, and the 52 reserved words at 0x30 + 4n. -/
inductive Reg where
  | ctrl | status | inLen | maxLen | outLen | npar | hdist | detect | correct | errPos | edLen | logCnt
  | reserved (n : Fin 52)
deriving DecidableEq, Repr

/-- The one-dimensional buffers (20_memory.md R60). -/
inductive Buffer where
  | inBuf | outBuf | origBuf | corrBuf | ptabPos | ptabVal | ptabCnt | logKind | logA | logB | logC
deriving DecidableEq, Repr

/-- One buffer element: element k of a one-dimensional buffer, or element (t, j) of PTAB_AFF (20_memory.md R60). -/
inductive ElemRef where
  | elem (b : Buffer) (k : Nat)
  | aff (t j : Nat)
deriving DecidableEq, Repr

/-- The value of a host write: an immediate or a host variable (30_encoding.md R92). -/
inductive HostValue where
  | imm (v : Word)
  | var (x : Nat)
deriving DecidableEq, Repr

/-- One line of a host program (30_encoding.md R92), and the same accesses named by bus address (00_scope.md R16).
Variables and labels are numbered. -/
inductive HostLine where
  /-- `WR R, v` -/
  | wr (r : Reg) (v : HostValue)
  /-- `WB b[k], v` -/
  | wb (e : ElemRef) (v : HostValue)
  /-- `RD x, R` -/
  | rd (x : Nat) (r : Reg)
  /-- `RB x, b[k]` and `RB x, PTAB_AFF[t][j]` -/
  | rb (x : Nat) (e : ElemRef)
  /-- `EXT x, y, hi, lo` -/
  | ext (x y hi lo : Nat)
  /-- `label:` -/
  | label (l : Nat)
  /-- `BZ x, mask, label` -/
  | bz (x : Nat) (mask : Word) (l : Nat)
  /-- `BNZ x, mask, label` -/
  | bnz (x : Nat) (mask : Word) (l : Nat)
  /-- `BEQ x, imm, label` -/
  | beq (x : Nat) (imm : Word) (l : Nat)
  /-- `J label` -/
  | j (l : Nat)
  /-- `HALT` -/
  | halt
  /-- `x := MemRead(addr, width)` -/
  | memRead (x addr width : Nat)
  /-- `MemWrite(addr, width, v)` -/
  | memWrite (addr width : Nat) (v : HostValue)
deriving DecidableEq, Repr

end Sys2Proof
end

