-- ==== Sys2Proof/Decode.lean ====
section
/-! DEFINITION. The command word (30_encoding.md R80 to R82, R87, R90): the total decoder of CTRL write values, the
instruction decoder, which rejects by name, and the encoder. -/

namespace Sys2Proof

/-- CTRL.OP of a written value, v[1:0] (30_encoding.md R82). -/
def opField (v : Word) : BitVec 2 := v.extractLsb' 0 2

/-- CTRL.START of a written value, v[4] (30_encoding.md R82). -/
def startField (v : Word) : Bool := v.getLsbD 4

/-- The operation a value of CTRL.OP selects; 0b00 and 0b11 are reserved (30_encoding.md R80). -/
def instrOfOp (op : BitVec 2) : Option Instr :=
  if op = 0b01#2 then some .encode
  else if op = 0b10#2 then some .decode
  else none

/-- The OP value of an operation (30_encoding.md R80). -/
def opOf : Instr → BitVec 2
  | .encode => 0b01#2
  | .decode => 0b10#2

/-- What a CTRL write value asks for: total over all W-bit values (30_encoding.md R87). -/
def classify (v : Word) : Command :=
  if startField v then
    match instrOfOp (opField v) with
    | some i => .start i
    | none => .startReserved (opField v)
  else .setOp (opField v)

/-- Why a word is no command of the opcode table. -/
inductive Reject where
  /-- START is clear: the write starts nothing (30_encoding.md R81). -/
  | noStart
  /-- START with a reserved OP (30_encoding.md R90). -/
  | reservedOp (op : BitVec 2)
deriving DecidableEq, Repr

/-- The instruction of a command word, or why it is none. -/
def decode (v : Word) : Except Reject Instr :=
  match classify v with
  | .start i => .ok i
  | .startReserved op => .error (.reservedOp op)
  | .setOp _ => .error .noStart

/-- The command word of an operation, ignored bits written 0 (30_encoding.md R82, R93). -/
def encode : Instr → Word
  | .encode => 0x00000011#32
  | .decode => 0x00000012#32

/-- A table word of `nbits` bits as the one W-bit CTRL write value it stands for; every bit above is 0. -/
def tableWord (nbits w : Nat) : Word := BitVec.ofNat 32 (w % 2 ^ nbits)

/-- The instruction the decoder reads from a word numbered as spec/opcode_table.json numbers it (log 17). -/
def decodeTableWord (nbits w : Nat) : Option Instr :=
  match decode (tableWord nbits w) with
  | .ok i => some i
  | .error _ => none

end Sys2Proof
end

