-- ==== Sys2Proof/Config.lean ====
section
/-! DEFINITION. What a platform or an implementation fixes: the parameters of 00_scope.md R8 to R12, and the free
values the spec calls draws (93_implementation_defined.md, treatment "any value"), which nothing in Lean can
evaluate. -/

namespace Sys2Proof

/-- GROUP_OFFSET (00_scope.md R9): 1 is the normative hardware, 0 the non-normative textbook variant. -/
inductive GroupRule where
  | normative
  | textbook
deriving DecidableEq, Repr

/-- The index offset of a group rule (00_scope.md R9). -/
def GroupRule.offset : GroupRule → Nat
  | .normative => 1
  | .textbook => 0

/-- WINDOW_BASE(b), the bus address of element 0 of each buffer (20_memory.md R64). -/
structure Windows where
  inBuf : Nat
  outBuf : Nat
  origBuf : Nat
  corrBuf : Nat
  ptabPos : Nat
  ptabVal : Nat
  ptabCnt : Nat
  ptabAff : Nat
  logKind : Nat
  logA : Nat
  logB : Nat
  logC : Nat
deriving DecidableEq, Repr

/-- WINDOW_BASE of a one-dimensional buffer (20_memory.md R64). -/
def Windows.ofBuffer (w : Windows) : Buffer → Nat
  | .inBuf => w.inBuf
  | .outBuf => w.outBuf
  | .origBuf => w.origBuf
  | .corrBuf => w.corrBuf
  | .ptabPos => w.ptabPos
  | .ptabVal => w.ptabVal
  | .ptabCnt => w.ptabCnt
  | .logKind => w.logKind
  | .logA => w.logA
  | .logB => w.logB
  | .logC => w.logC

/-- The parameters of the model (00_scope.md R8, R9, R11). They are no state of the block (10_state.md R21): State
carries them as a constant, so that every statement about a state holds for every choice of them
(DESIGN CHOICE, log 1). -/
structure Params where
  maxLen : Nat
  groupRule : GroupRule
  base : Nat
  windows : Windows
deriving DecidableEq, Repr

/-- PMAX, the capacity of the parity table (00_scope.md R12). -/
def Params.pMax (p : Params) : Nat := Nat.log2 p.maxLen + 1

/-- LOG_MAX, the capacity of the step log (00_scope.md R12). -/
def Params.logMax (p : Params) : Nat := 2 * p.pMax + 1

/-- The number of elements of a one-dimensional buffer (20_memory.md R60). -/
def Params.capacity (p : Params) : Buffer → Nat
  | .inBuf | .outBuf | .origBuf | .corrBuf => p.maxLen
  | .ptabPos | .ptabVal | .ptabCnt => p.pMax
  | .logKind | .logA | .logB | .logC => p.logMax

/-- The example parameters of 95_test_vectors.md section 5, which State.reset carries (DESIGN CHOICE, log 1). -/
def Params.example5 : Params where
  maxLen := 16
  groupRule := .normative
  base := 0x10000000
  windows :=
    { inBuf := 0x10001000, outBuf := 0x10002000, origBuf := 0x10003000, corrBuf := 0x10004000
      ptabPos := 0x10005000, ptabVal := 0x10005100, ptabCnt := 0x10005200, ptabAff := 0x10006000
      logKind := 0x10007000, logA := 0x10007100, logB := 0x10007200, logC := 0x10007300 }

/-- The n-th draw of an unspecified W-bit value: a result read while busy, a read beyond capacity, an element beyond
the valid counts (20_memory.md R63, R69; 93_implementation_defined.md I9, I10, I12). Free (log 4). The number carries no block identity
(DESIGN CHOICE, log 16). -/
opaque Config.freeWord : Nat → Word

/-- What an element holds after the reset that made draw n (10_state.md R48; 93_implementation_defined.md I11): one
value per element. Free (log 5). The number carries no block identity (DESIGN CHOICE, log 16). -/
opaque Config.resetElement : Nat → ElemRef → Word

/-- The latency drawn for an operation by draw n: how many host steps come before its completion
(70_reset_and_hazards.md R321; 93_implementation_defined.md I13). Free (log 3). The number carries no
block identity (DESIGN CHOICE, log 16). -/
opaque Config.latency : Nat → Nat

/-- What host variable x holds before the host assigns it. Free (log 9). It carries no block identity
(DESIGN CHOICE, log 16). -/
opaque Config.hostVariable : Nat → Word

end Sys2Proof
end

