-- ==== Sys2Proof/Machine/Memory.lean ====
section
/-! DEFINITION. IN_BUF as a list of (index, symbol) cells (10_state.md R38, 20_memory.md R60, R63, R66). The block's
only memory is this buffer: cells stand at exactly the indices 0..MAX_LEN-1, rising, so equal buffers are equal lists
(log 5). -/

namespace Sys2Proof.Machine

/-- The cells of IN_BUF. -/
abbrev Memory := List Host.Cell

/-- The canonical form: one cell for each index 0..MAX_LEN-1, strictly rising, and none beyond. -/
abbrev Memory.wf (maxLen : Nat) (m : Memory) : Prop := m.map Prod.fst = List.range maxLen

/-- The symbol at index k; none where the buffer has no such element. -/
def Memory.read : Memory → Nat → Option Byte
  | [], _ => none
  | (k', b) :: rest, k => if k' = k then some b else Memory.read rest k

/-- Store a symbol at index k; nothing changes where the buffer has no such element (20_memory.md R63). -/
def Memory.write (m : Memory) (k : Nat) (v : Byte) : Memory :=
  m.map fun c => if c.1 = k then (c.1, v) else c

/-- The symbol IN_BUF[k] holds after the reset that made draw n: a free value (10_state.md R48). -/
def resetSymbol (n k : Nat) : Byte := (Config.resetElement n (.elem .inBuf k)).setWidth 8

/-- IN_BUF after reset: one free symbol per element (10_state.md R48). -/
def Memory.fresh (maxLen n : Nat) : Memory := (List.range maxLen).map fun k => (k, resetSymbol n k)

end Sys2Proof.Machine
end

