-- ==== Sys2Proof/Machine/State.lean ====
section
/-! DEFINITION. The state of the block (10_state.md R21, R24 to R49), the reasons a step can stop, and the state after
reset (R48). The first fields of State are the spec's; the last five are the model's own (INVENTORY.md). -/

namespace Sys2Proof.Machine

/-- STATUS.RESULT (30_encoding.md R86). Value 7 is reserved and never written, so it is no constructor. -/
inductive ResultCode where
  | none | ok | corrected | uncorrectable | invalidInput | illegalOp | lengthError
deriving DecidableEq, Repr

/-- One ParityTableEntry (10_state.md R45). -/
structure Entry where
  parityPosition : Nat
  affectedPositions : List Nat
  parityValue : Bit
deriving DecidableEq, Repr

/-- A step-log event (30_encoding.md R88). -/
inductive Event where
  | len (m r : Nat)
  | placeholder (p : Nat)
  | parity (p : Nat) (v : Bit)
  | check (p : Nat) (s : Bit)
  | correct (e : Nat)
  | uncorrectable (e : Nat)
deriving DecidableEq, Repr

/-- The result state (10_state.md R45); the result registers and buffers are views of it. -/
structure ResultState where
  code : ResultCode
  error : Bool
  out : Option BitString
  errPos : Nat
  orig : Option BitString
  corr : Option BitString
  ptab : List Entry
  hdist : Nat
  detect : Nat
  correct : Nat
  log : List Event
deriving DecidableEq, Repr

/-- Empty(code), the empty result state (10_state.md R46). -/
def ResultState.empty (code : ResultCode) : ResultState where
  code := code
  error := false
  out := Option.none
  errPos := 0
  orig := Option.none
  corr := Option.none
  ptab := []
  hdist := 0
  detect := 0
  correct := 0
  log := []

/-- The host agent (10_state.md R20, 30_encoding.md R92): its program, the line it stands at, and the variables it has
assigned, by rising number (log 9). -/
structure HostAgent where
  program : List HostLine
  line : Nat
  vars : List (Nat × Word)
deriving DecidableEq, Repr

/-- The state of one block, its parameters and its host (10_state.md R21). -/
structure State where
  /-- MAX_LEN, GROUP_OFFSET, BASE, WINDOW_BASE: constant (00_scope.md R8 to R11; log 1) -/
  params : Params
  /-- CTRL.OP (10_state.md R25) -/
  ctrlOp : BitVec 2
  /-- STATUS.BUSY (10_state.md R26) -/
  busy : Bool
  /-- STATUS.DONE (10_state.md R26) -/
  done : Bool
  /-- IN_LEN (10_state.md R28) -/
  inLen : Word
  /-- IN_BUF (10_state.md R38) -/
  inBuf : Memory
  /-- the result registers, output buffers, parity table and step log (10_state.md R45) -/
  result : ResultState
  /-- model's own: host steps left before the completion of the operation in flight (log 3) -/
  latency : Nat
  /-- model's own: the number of free values drawn so far (log 4) -/
  draws : Nat
  /-- model's own: the draw the last reset filled the buffers with (log 5) -/
  resetDraw : Nat
  /-- model's own: input, the steps to each arriving reset (log 10) -/
  resets : List Nat
  /-- model's own: the host agent (log 9) -/
  host : HostAgent
deriving DecidableEq, Repr

/-- The block has no trap and no stuck state: every condition is a result code (60_exceptions.md R281, R285; log 13).
No step faults, so there is no fault to name. -/
inductive Fault
deriving DecidableEq, Repr

/-- Why a step has no meaning. -/
inductive Refusal where
  /-- An instruction whose meaning is not written. Raised by exec; safe. No arm of this model raises it. -/
  | notModelled (mnemonic : String)
  /-- A bus access that is not 4 bytes, not aligned, or outside the block (20_memory.md R65). Raised by the host's
  MemRead and MemWrite; safe. -/
  | accessNotAdmitted (addr width : Nat)
  /-- A host program jumps to a label it does not hold (30_encoding.md R92 gives such a line no meaning). Raised by
  the host's branches; safe. -/
  | undefinedLabel (l : Nat)
deriving DecidableEq, Repr

/-- The block right after a reset that made draw n, under parameters p, with no host program (10_state.md R48). -/
def State.resetWith (p : Params) (n : Nat) : State where
  params := p
  ctrlOp := 0b00#2
  busy := false
  done := false
  inLen := 0
  inBuf := Memory.fresh p.maxLen n
  result := ResultState.empty .none
  latency := 0
  draws := n + 1
  resetDraw := n
  resets := []
  host := { program := [], line := 0, vars := [] }

/-- The machine right after reset (10_state.md R48). -/
def State.reset : State := State.resetWith Params.example5 0

end Sys2Proof.Machine
end

