-- ==== Sys2Proof/Machine/Flags.lean ====
section
/-! DEFINITION. The flags: STATUS and CTRL as words a host reads (10_state.md R25, R26, R44), and the result codes'
numbers (30_encoding.md R86). -/

namespace Sys2Proof.Machine

/-- The number of a result code in STATUS.RESULT (30_encoding.md R86). -/
def ResultCode.number : ResultCode → Nat
  | .none => 0
  | .ok => 1
  | .corrected => 2
  | .uncorrectable => 3
  | .invalidInput => 4
  | .illegalOp => 5
  | .lengthError => 6

/-- ED_VALID = 1 iff errorDetails is present (10_state.md R44, R45). -/
def ResultState.edValid (r : ResultState) : Bool := r.orig.isSome

/-- OUT_VALID = 1 iff encodedData or decodedData is present (10_state.md R44, R45). -/
def ResultState.outValid (r : ResultState) : Bool := r.out.isSome

/-- CORR_VALID = 1 iff correctedData is present (10_state.md R44, R45). -/
def ResultState.corrValid (r : ResultState) : Bool := r.corr.isSome

/-- A word with one bit at place i. -/
def bitWord (b : Bool) (i : Nat) : Word := BitVec.ofNat 32 (b.toNat * 2 ^ i)

/-- STATUS while not busy, field by field; reserved bits read 0 (10_state.md R26). -/
def statusWord (busy done : Bool) (r : ResultState) : Word :=
  bitWord busy 0 ||| bitWord done 1 ||| BitVec.ofNat 32 (r.code.number * 2 ^ 4) ||| bitWord r.error 8
    ||| bitWord r.edValid 9 ||| bitWord r.outValid 10 ||| bitWord r.corrValid 11

/-- STATUS while busy: BUSY = 1, DONE = 0, RESULT and the four flags from the draw d, reserved bits 0
(20_memory.md R69, R62; log 8). -/
def busyStatusWord (d : Word) : Word := (d &&& 0x00000F70#32) ||| 0x00000001#32

/-- CTRL: OP in bits 1:0; START and the reserved bits read 0 (10_state.md R25). -/
def ctrlWord (op : BitVec 2) : Word := op.setWidth 32

end Sys2Proof.Machine
end

