-- ==== Sys2Proof/Machine/Operands.lean ====
section
/-! DEFINITION. Operand forms: symbols (30_encoding.md R84, R85), positions of a bit string (00_scope.md R13), the
implicit operands IN_LEN and IN_BUF of both operations (30_encoding.md R83) and the checks every operation begins with
(60_exceptions.md R276). -/

namespace Sys2Proof.Machine

/-- bit(s), the bit of an input symbol, none for the 254 invalid symbols (30_encoding.md R84). -/
def bitOfSymbol (s : Byte) : Option Bit :=
  if s = 0x30#8 then some false else if s = 0x31#8 then some true else none

/-- sym(b), the symbol of an output bit (30_encoding.md R85). -/
def symbolOfBit (b : Bit) : Byte := if b then 0x31#8 else 0x30#8

/-- c.at(i): the bit at position i, for 1 <= i <= len(c) (00_scope.md R13; log 14 for other i, which no rule reads). -/
def bitAt (c : BitString) (i : Nat) : Bit := c.getD (i - 1) false

/-- c.set(i, v): c with position i replaced by v, for 1 <= i <= len(c) (00_scope.md R13). -/
def setBit (c : BitString) (i : Nat) (v : Bit) : BitString := c.set (i - 1) v

/-- The bits of a list of symbols, none if one of them is invalid (30_encoding.md R84). -/
def bitsOfSymbols : List Byte → Option BitString
  | [] => some []
  | s :: rest =>
    match bitOfSymbol s, bitsOfSymbols rest with
    | some b, some bs => some (b :: bs)
    | _, _ => none

/-- IN_BUF[k][7:0] as the core reads it (30_encoding.md R83): the cell's symbol; where a buffer that is not canonical
lacks the cell, the element's reset value (log 5). -/
def State.inputSymbol (s : State) (k : Nat) : Byte := (s.inBuf.read k).getD (resetSymbol s.resetDraw k)

/-- IN_LEN, read as an unsigned number (30_encoding.md R83). -/
def State.inputLength (s : State) : Nat := s.inLen.toNat

/-- The input bits of an operation of length `len`: bit(IN_BUF[0]) ... bit(IN_BUF[len-1]) (30_encoding.md R83). -/
def inputBits (sym : Nat → Byte) (len : Nat) : Option BitString := bitsOfSymbols ((List.range len).map sym)

/-- check(op, L, IN_BUF), the second, third and fourth checks in their order (60_exceptions.md R276): the input bits,
or the code that ends the operation. -/
def checkInput (maxLen len : Nat) (sym : Nat → Byte) : Except ResultCode BitString :=
  if len = 0 then .error .invalidInput
  else if maxLen < len then .error .lengthError
  else
    match inputBits sym len with
    | none => .error .invalidInput
    | some d => .ok d

end Sys2Proof.Machine
end

