-- ==== Sys2Proof/Machine/Ops.lean ====
section
/-! DEFINITION. The named operations over the block's state: draws, ending an operation (60_exceptions.md R276, R277),
register and buffer accesses (20_memory.md R62, R63, R68, R69), accesses by bus address (R64, R65), and reset
(70_reset_and_hazards.md R310). -/

namespace Sys2Proof.Machine

/-! ### Ending an operation -/

/-- End the operation in flight: write the result state, BUSY <- 0, DONE <- 1 (60_exceptions.md R276). CTRL, IN_LEN
and IN_BUF are not written (10_state.md R50). -/
def State.finish (s : State) (r : ResultState) : State :=
  { s with busy := false, done := true, result := r, latency := 0 }

/-- Take an exception: `raise code` ends the operation with Empty(code), and no partial result is kept
(60_exceptions.md R277). There is no trap entry, so nothing is saved (R281) and nothing returns (R282). -/
def State.takeException (s : State) (code : ResultCode) : State := s.finish (ResultState.empty code)

/-- "try X": end with X's result, or with the exception X raised (60_exceptions.md R276). -/
def State.finishTry (s : State) : Except ResultCode ResultState → State
  | .ok r => s.finish r
  | .error code => s.takeException code

/-! ### Draws -/

/-- A fresh unspecified W-bit value (93_implementation_defined.md, "any value"; log 4). -/
def State.drawWord (s : State) : Word × State := (Config.freeWord s.draws, { s with draws := s.draws + 1 })

/-! ### Registers -/

/-- The byte offset of a register from BASE (10_state.md R24). -/
def regOffset : Reg → Nat
  | .ctrl => 0x00
  | .status => 0x04
  | .inLen => 0x08
  | .maxLen => 0x0C
  | .outLen => 0x10
  | .npar => 0x14
  | .hdist => 0x18
  | .detect => 0x1C
  | .correct => 0x20
  | .errPos => 0x24
  | .edLen => 0x28
  | .logCnt => 0x2C
  | .reserved n => 0x30 + 4 * n.val

/-- The register at word index w of the register space, byte offset 4w (10_state.md R24); none from 64 on. -/
def regAtWord (w : Nat) : Option Reg :=
  match w with
  | 0 => some .ctrl
  | 1 => some .status
  | 2 => some .inLen
  | 3 => some .maxLen
  | 4 => some .outLen
  | 5 => some .npar
  | 6 => some .hdist
  | 7 => some .detect
  | 8 => some .correct
  | 9 => some .errPos
  | 10 => some .edLen
  | 11 => some .logCnt
  | k + 12 => if h : k < 52 then some (.reserved ⟨k, h⟩) else none

/-- The length of an optional string, 0 when absent (10_state.md R30, R36). -/
def lengthOf : Option BitString → Nat
  | none => 0
  | some c => c.length

/-- What a register holds while not busy (10_state.md R24 to R37). -/
def State.regValue (s : State) : Reg → Word
  | .ctrl => ctrlWord s.ctrlOp
  | .status => statusWord s.busy s.done s.result
  | .inLen => s.inLen
  | .maxLen => Word.ofCount s.params.maxLen
  | .outLen => Word.ofCount (lengthOf s.result.out)
  | .npar => Word.ofCount s.result.ptab.length
  | .hdist => Word.ofCount s.result.hdist
  | .detect => Word.ofCount s.result.detect
  | .correct => Word.ofCount s.result.correct
  | .errPos => Word.ofCount s.result.errPos
  | .edLen => Word.ofCount (lengthOf s.result.orig)
  | .logCnt => Word.ofCount s.result.log.length
  | .reserved _ => 0

/-- RegRead(R): the value read and the state after. While busy, STATUS shows BUSY = 1 and DONE = 0 and draws the rest,
the result registers are draws, and CTRL, IN_LEN, MAXLEN and the reserved words read as ever (20_memory.md R62, R69).
DEDUCED (log 22): the draws end at the completion, with BUSY = 1 (R69), and not only at the first STATUS read that
returns DONE = 1, as 70_reset_and_hazards.md R316 can be read. -/
def State.regRead (s : State) (r : Reg) : Word × State :=
  if s.busy then
    match r with
    | .ctrl | .inLen | .maxLen | .reserved _ => (s.regValue r, s)
    | .status => (busyStatusWord s.drawWord.1, s.drawWord.2)
    | .outLen | .npar | .hdist | .detect | .correct | .errPos | .edLen | .logCnt => s.drawWord
  else (s.regValue r, s)

/-- RegWrite(CTRL, v) while not busy: CTRL.OP <- v[1:0]; if v[4] = 1, BUSY <- 1, DONE <- 0 and the latency of the
operation is drawn (30_encoding.md R81, 70_reset_and_hazards.md R321). -/
def State.writeCtrl (s : State) (v : Word) : State :=
  match classify v with
  | .setOp op => { s with ctrlOp := op }
  | .start i =>
    { s with ctrlOp := opOf i, busy := true, done := false, latency := Config.latency s.draws, draws := s.draws + 1 }
  | .startReserved op =>
    { s with ctrlOp := op, busy := true, done := false, latency := Config.latency s.draws, draws := s.draws + 1 }

/-- RegWrite(R, v): while busy, every write is ignored; a write to a read-only or reserved register is ignored
(20_memory.md R62, R68). -/
def State.regWrite (s : State) (r : Reg) (v : Word) : State :=
  if s.busy then s
  else
    match r with
    | .ctrl => s.writeCtrl v
    | .inLen => { s with inLen := v }
    | .status | .maxLen | .outLen | .npar | .hdist | .detect | .correct | .errPos | .edLen | .logCnt
    | .reserved _ => s

/-! ### Buffers -/

/-- The element lies within its buffer's capacity (20_memory.md R60, R63). -/
def elemExists (p : Params) : ElemRef → Bool
  | .elem b k => k < p.capacity b
  | .aff t j => t < p.pMax && j < p.maxLen

/-- The element is a symbol element: its symbol in bits 7:0, bits 31:8 read 0 (20_memory.md R61). -/
def isSymbolElem : ElemRef → Bool
  | .elem .inBuf _ | .elem .outBuf _ | .elem .origBuf _ | .elem .corrBuf _ => true
  | .elem .ptabPos _ | .elem .ptabVal _ | .elem .ptabCnt _ => false
  | .elem .logKind _ | .elem .logA _ | .elem .logB _ | .elem .logC _ => false
  | .aff _ _ => false

/-- An unspecified element value as a host reads it: any symbol in a symbol element, any word in another
(20_memory.md R61; log 7). -/
def unspecifiedElem (e : ElemRef) (d : Word) : Word := if isSymbolElem e then (d.setWidth 8).setWidth 32 else d

/-- KIND of an event (30_encoding.md R88). -/
def Event.kind : Event → Nat
  | .len _ _ => 1
  | .placeholder _ => 2
  | .parity _ _ => 3
  | .check _ _ => 4
  | .correct _ => 5
  | .uncorrectable _ => 6

/-- A of an event (30_encoding.md R88). -/
def Event.argA : Event → Nat
  | .len m _ => m
  | .placeholder p => p
  | .parity p _ => p
  | .check p _ => p
  | .correct e => e
  | .uncorrectable e => e

/-- B of an event (30_encoding.md R88). -/
def Event.argB : Event → Nat
  | .len _ r => r
  | .placeholder _ => 0
  | .parity _ v => v.toNat
  | .check _ s => s.toNat
  | .correct _ => 0
  | .uncorrectable _ => 0

/-- C of an event, 0 in every kind (30_encoding.md R88). -/
def Event.argC : Event → Nat
  | .len _ _ | .placeholder _ | .parity _ _ | .check _ _ | .correct _ | .uncorrectable _ => 0

/-- Element k of a string buffer: the symbol of position k + 1 (10_state.md R39 to R41). -/
def stringElem (c : Option BitString) (k : Nat) : Option Word :=
  match c with
  | none => none
  | some bits => (bits[k]?).map fun b => (symbolOfBit b).setWidth 32

/-- A valid element of the result buffers; none where the element is not valid (10_state.md R39 to R43). -/
def ResultState.elem (r : ResultState) : ElemRef → Option Word
  | .elem .inBuf _ => none
  | .elem .outBuf k => stringElem r.out k
  | .elem .origBuf k => stringElem r.orig k
  | .elem .corrBuf k => stringElem r.corr k
  | .elem .ptabPos t => (r.ptab[t]?).map fun e => Word.ofCount e.parityPosition
  | .elem .ptabVal t => (r.ptab[t]?).map fun e => Word.ofCount e.parityValue.toNat
  | .elem .ptabCnt t => (r.ptab[t]?).map fun e => Word.ofCount e.affectedPositions.length
  | .elem .logKind k => (r.log[k]?).map fun e => Word.ofCount e.kind
  | .elem .logA k => (r.log[k]?).map fun e => Word.ofCount e.argA
  | .elem .logB k => (r.log[k]?).map fun e => Word.ofCount e.argB
  | .elem .logC k => (r.log[k]?).map fun e => Word.ofCount e.argC
  | .aff t j =>
    match r.ptab[t]? with
    | none => none
    | some e => (e.affectedPositions[j]?).map Word.ofCount

/-- Read an element of a result buffer, in range and not busy: its value where valid; before the first completion
since reset the element's reset value, the same at each read; else a draw (93_implementation_defined.md I11, I12;
log 6). -/
def State.readResultElem (s : State) (e : ElemRef) : Word × State :=
  match s.result.elem e with
  | some v => (v, s)
  | none =>
    if s.result.code = .none then (unspecifiedElem e (Config.resetElement s.resetDraw e), s)
    else (unspecifiedElem e s.drawWord.1, s.drawWord.2)

/-- Read an element within capacity: IN_BUF always gives its symbol, a result buffer a draw while busy
(20_memory.md R61, R69). DEDUCED (log 22): the draws end at the completion, before any STATUS read. -/
def State.readElem (s : State) : ElemRef → Word × State
  | .elem .inBuf k => ((s.inputSymbol k).setWidth 32, s)
  | e => if s.busy then s.drawWord else s.readResultElem e

/-- BufRead(b, k): a draw beyond capacity (20_memory.md R63). -/
def State.bufRead (s : State) (e : ElemRef) : Word × State :=
  if elemExists s.params e then s.readElem e else s.drawWord

/-- BufWrite(b, k, v): stores v[7:0] in IN_BUF while not busy; every other write, one beyond capacity too, is ignored
(20_memory.md R63, R68). -/
def State.bufWrite (s : State) (e : ElemRef) (v : Word) : State :=
  match e with
  | .elem .inBuf k =>
    if s.busy || !(elemExists s.params e) then s else { s with inBuf := s.inBuf.write k (v.setWidth 8) }
  | _ => s

/-! ### Accesses by bus address -/

/-- What an admitted bus address names (20_memory.md R64). -/
inductive BusTarget where
  | reg (r : Reg)
  | elem (e : ElemRef)
deriving DecidableEq, Repr

/-- The element of a window of `size` elements at `base` that address a names. -/
def windowIndex (base size a : Nat) : Option Nat :=
  if base ≤ a && a < base + 4 * size then some ((a - base) / 4) else none

/-- The element of a one-dimensional buffer's window at address a. -/
def inWindow (p : Params) (b : Buffer) (a : Nat) : Option BusTarget :=
  (windowIndex (p.windows.ofBuffer b) (p.capacity b) a).map fun k => .elem (.elem b k)

/-- The element of PTAB_AFF's window at address a: index t * MAX_LEN + j (20_memory.md R64). -/
def inAffWindow (p : Params) (a : Nat) : Option BusTarget :=
  (windowIndex p.windows.ptabAff (p.pMax * p.maxLen) a).map fun i => .elem (.aff (i / p.maxLen) (i % p.maxLen))

/-- The register at address a, if a lies in the register space (20_memory.md R64). -/
def inRegSpace (p : Params) (a : Nat) : Option BusTarget :=
  if p.base ≤ a then (regAtWord ((a - p.base) / 4)).map .reg else none

/-- The one-dimensional buffers, in the order of 20_memory.md R60. -/
def allBuffers : List Buffer :=
  [.inBuf, .outBuf, .origBuf, .corrBuf, .ptabPos, .ptabVal, .ptabCnt, .logKind, .logA, .logB, .logC]

/-- What a bus address names in the block; none for the platform's own addresses (20_memory.md R64). -/
def locate (p : Params) (a : Nat) : Option BusTarget :=
  (inRegSpace p a).or ((allBuffers.findSome? fun b => inWindow p b a).or (inAffWindow p a))

/-- An access of 4 bytes at a multiple of 4 inside the block names its target; no other is admitted
(20_memory.md R65). -/
def busTarget (p : Params) (addr width : Nat) : Except Refusal BusTarget :=
  if width = 4 && addr % 4 = 0 then
    match locate p addr with
    | some t => .ok t
    | none => .error (.accessNotAdmitted addr width)
  else .error (.accessNotAdmitted addr width)

/-- Read the register or element an address names (20_memory.md R65). -/
def State.readTarget (s : State) : BusTarget → Word × State
  | .reg r => s.regRead r
  | .elem e => s.bufRead e

/-- Write the register or element an address names (20_memory.md R65). -/
def State.writeTarget (s : State) (t : BusTarget) (v : Word) : State :=
  match t with
  | .reg r => s.regWrite r v
  | .elem e => s.bufWrite e v

/-! ### Reset -/

/-- Reset: every piece of the block's state at its reset value at once, whatever it was; the operation in flight is
abandoned; parameters and the host agent are not the block's state (70_reset_and_hazards.md R310 to R313). The
elements' new values are a new draw. -/
def State.applyReset (s : State) : State :=
  { State.resetWith s.params s.draws with resets := s.resets, host := s.host }

end Sys2Proof.Machine
end

