-- ==== Sys2Proof/Machine/Classifier.lean ====
section
/-! DEFINITION. The position classifier (40_classifier.md): isParityPosition and requiredParityBits, and the integer
functions of 00_scope.md R14. -/

namespace Sys2Proof.Machine

/-- flog2(m) for m >= 1, the k with 2^k <= m < 2^(k+1), in exact integer arithmetic (00_scope.md R14). -/
def flog2 (m : Nat) : Nat := Nat.log2 m

/-- isParityPosition(i) for i >= 1: i is an exact power of two (40_classifier.md R110; i = 0 never occurs, R111). -/
def isParityPosition (i : Nat) : Bool := i &&& (i - 1) == 0

/-- The loop of requiredParityBits from r on, at most `fuel` increments (40_classifier.md R113). -/
def requiredParityBitsFrom (m : Nat) : Nat → Nat → Nat
  | 0, r => r
  | fuel + 1, r => if 2 ^ r < m + r + 1 then requiredParityBitsFrom m fuel (r + 1) else r

/-- requiredParityBits(m) for m >= 1: the smallest r >= 1 with 2^r >= m + r + 1 (40_classifier.md R113). The loop
ends within flog2(m) + 1 increments (R115); m = 0 never occurs (R114). -/
def requiredParityBits (m : Nat) : Nat := requiredParityBitsFrom m (flog2 m + 1) 1

end Sys2Proof.Machine
end

