-- ==== Sys2Proof/Machine/ParityGroup.lean ====
section
/-! DEFINITION. The parity-group selector, the XOR tree and the parity-table entries (41_parity_group.md). `off` is
GROUP_OFFSET (00_scope.md R9). -/

namespace Sys2Proof.Machine

/-- Position i feeds parity p: ((i + GROUP_OFFSET) & p) != 0, the bit whose value is p (41_parity_group.md R130, R131). -/
def inGroup (off p i : Nat) : Bool := (i + off) &&& p != 0

/-- Group(n, p): the positions p..n that feed parity p, ascending (41_parity_group.md R130). -/
def group (off n p : Nat) : List Nat := (List.range' p (n + 1 - p)).filter (inGroup off p)

/-- XOR of the bits of c at the listed positions; 0 for none (00_scope.md R14). -/
def xorAt (c : BitString) (positions : List Nat) : Bit := positions.foldl (fun v i => v ^^ bitAt c i) false

/-- parityValue(c, p): the XOR of the bits of c over Group(len(c), p) (41_parity_group.md R134). -/
def parityValue (off : Nat) (c : BitString) (p : Nat) : Bit := xorAt c (group off c.length p)

/-- Entry(n, p, v) (41_parity_group.md R140). -/
def entry (off n p : Nat) (v : Bit) : Entry where
  parityPosition := p
  affectedPositions := group off n p
  parityValue := v

end Sys2Proof.Machine
end

