-- ==== Sys2Proof/Machine/Decoder.lean ====
section
/-! DEFINITION. DECODE (44_decode.md R220 to R236). -/

namespace Sys2Proof.Machine

/-- What the checks carry from one parity position to the next: the error position, the table and the log. -/
structure CheckPass where
  errPos : Nat
  table : List Entry
  events : List Event
deriving DecidableEq, Repr

/-- Step 1 for i, p = 2^i: the check s_p over the received bits b, which no check changes; log it, add p to the error
position if it fails, and append the entry whatever s_p is (44_decode.md R222 to R225). -/
def checkStep (off : Nat) (b : BitString) (a : CheckPass) (i : Nat) : CheckPass :=
  let p := 2 ^ i
  let s := parityValue off b p
  { errPos := if s then a.errPos + p else a.errPos
    table := a.table ++ [entry off b.length p s]
    events := a.events ++ [.check p s] }

/-- The number of checks of a received string of length L >= 1, K = flog2(L) + 1 (44_decode.md R221). -/
def checkCount (len : Nat) : Nat := flog2 len + 1

/-- Step 1: one check per p = 2^i <= L, ascending (44_decode.md R221). -/
def checkPass (off : Nat) (b : BitString) : CheckPass :=
  (List.range (checkCount b.length)).foldl (checkStep off b) { errPos := 0, table := [], events := [] }

/-- The corrector: the working copy with bit e flipped, or b itself when e = 0 (44_decode.md R229). -/
def correctedCopy (b : BitString) (e : Nat) : BitString := if e = 0 then b else setBit b e (!bitAt b e)

/-- The payload extractor: the bits at the data positions 1..L, ascending (44_decode.md R230). -/
def extractPayload (w : BitString) : BitString :=
  ((List.range' 1 w.length).filter fun j => !isParityPosition j).map (bitAt w)

/-- The result state of a DECODE of received string b that passed its checks (44_decode.md R220, R227, R231, R232). -/
def decodeResult (off : Nat) (b : BitString) : ResultState :=
  let pass := checkPass off b
  let e := pass.errPos
  if b.length < e then
    { code := .uncorrectable, error := true, out := none, errPos := e, orig := some b, corr := none
      ptab := pass.table, hdist := 0, detect := 0, correct := 0, log := pass.events ++ [.uncorrectable e] }
  else
    let w := correctedCopy b e
    if e = 0 then
      { code := .ok, error := false, out := some (extractPayload w), errPos := 0, orig := none, corr := none
        ptab := pass.table, hdist := 0, detect := 0, correct := 0, log := pass.events }
    else
      { code := .corrected, error := false, out := some (extractPayload w), errPos := e, orig := some b
        corr := some w, ptab := pass.table, hdist := 0, detect := 0, correct := 0
        log := pass.events ++ [.correct e] }

/-- DECODE(L, IN_BUF): the checks, then the operation (44_decode.md R220, R235). -/
def decodeOp (p : Params) (len : Nat) (sym : Nat → Byte) : Except ResultCode ResultState :=
  match checkInput p.maxLen len sym with
  | .error code => .error code
  | .ok b => .ok (decodeResult p.groupRule.offset b)

/-- The meaning of DECODE: the completion of a DECODE in flight (44_decode.md R220, 60_exceptions.md R276; log 2). -/
def execDecode (s : State) : Host.Outcome State Fault Refusal :=
  .next (s.finishTry (decodeOp s.params s.inputLength s.inputSymbol))

end Sys2Proof.Machine
end

