-- ==== Sys2Proof/Machine/Metrics.lean ====
section
/-! DEFINITION. The minimum-distance calculator (43_min_distance.md). -/

namespace Sys2Proof.Machine

/-- minDistance(m) = flog2(m) + 1 (43_min_distance.md R200). -/
def minDistance (m : Nat) : Nat := flog2 m + 1

/-- detectable(m) = minDistance(m) - 1 (43_min_distance.md R201). -/
def detectable (m : Nat) : Nat := minDistance m - 1

/-- correctable(m) = floor((minDistance(m) - 1) / 2) (43_min_distance.md R202). -/
def correctable (m : Nat) : Nat := (minDistance m - 1) / 2

end Sys2Proof.Machine
end

