-- ==== Sys2Proof/Machine/Encoder.lean ====
section
/-! DEFINITION. ENCODE (42_encode.md R160 to R172). -/

namespace Sys2Proof.Machine

/-- Step 3 from position `pos` on, over `count` positions: 0 at a parity position, else the next payload bit
(42_encode.md R163). The payload is never short (40_classifier.md R117; log 14). -/
def placeFrom : Nat → Nat → BitString → BitString
  | 0, _, _ => []
  | count + 1, pos, d =>
    if isParityPosition pos then false :: placeFrom count (pos + 1) d
    else d.headD false :: placeFrom count (pos + 1) d.tail

/-- The placeholder codeword of payload d, n positions (42_encode.md R162, R163). -/
def placeholderCodeword (n : Nat) (d : BitString) : BitString := placeFrom n 1 d

/-- The PLACEHOLDER events of step 3, one per parity position in 1..n, ascending (42_encode.md R163). -/
def placeholderEvents (n : Nat) : List Event :=
  ((List.range' 1 n).filter isParityPosition).map Event.placeholder

/-- What the parity pass carries from one parity bit to the next. -/
structure ParityPass where
  codeword : BitString
  table : List Entry
  events : List Event
deriving DecidableEq, Repr

/-- Step 4 for i, p = 2^i: compute parityValue over the codeword as it stands, write it at p, append the entry and
log it (42_encode.md R164). -/
def parityStep (off n : Nat) (a : ParityPass) (i : Nat) : ParityPass :=
  let p := 2 ^ i
  let v := parityValue off a.codeword p
  { codeword := setBit a.codeword p v
    table := a.table ++ [entry off n p v]
    events := a.events ++ [.parity p v] }

/-- Step 4: i = 0, 1, ..., r-1 in that order, from the placeholder codeword (42_encode.md R164, R180). -/
def parityPass (off n r : Nat) (ph : BitString) : ParityPass :=
  (List.range r).foldl (parityStep off n) { codeword := ph, table := [], events := [] }

/-- The result state of a successful ENCODE of payload d (42_encode.md R160, R172). -/
def encodeResult (off : Nat) (d : BitString) : ResultState :=
  let m := d.length
  let r := requiredParityBits m
  let n := m + r
  let pass := parityPass off n r (placeholderCodeword n d)
  { code := .ok
    error := false
    out := some pass.codeword
    errPos := 0
    orig := none
    corr := none
    ptab := pass.table
    hdist := minDistance m
    detect := detectable m
    correct := correctable m
    log := .len m r :: (placeholderEvents n ++ pass.events) }

/-- ENCODE(m, IN_BUF): the checks, then the codeword-length check, then the operation (42_encode.md R160, R170). -/
def encodeOp (p : Params) (m : Nat) (sym : Nat → Byte) : Except ResultCode ResultState :=
  match checkInput p.maxLen m sym with
  | .error code => .error code
  | .ok d =>
    if p.maxLen < m + requiredParityBits m then .error .lengthError
    else .ok (encodeResult p.groupRule.offset d)

/-- The meaning of ENCODE: the completion of an ENCODE in flight (42_encode.md R160, 60_exceptions.md R276; log 2). -/
def execEncode (s : State) : Host.Outcome State Fault Refusal :=
  .next (s.finishTry (encodeOp s.params s.inputLength s.inputSymbol))

end Sys2Proof.Machine
end

