-- ==== Sys2Proof/Machine/Completion.lean ====
section
/-! DEFINITION. The core's one step, completion (60_exceptions.md R276). -/

namespace Sys2Proof.Machine

/-- Complete(): run the operation CTRL.OP names, or end with ILLEGAL_OP when it is reserved, which is the first check
(60_exceptions.md R274, R276). Enabled iff BUSY = 1; step calls it only then. -/
def complete (s : State) : Host.Outcome State Fault Refusal :=
  match instrOfOp s.ctrlOp with
  | some i => exec i s
  | none => .next (s.takeException .illegalOp)

end Sys2Proof.Machine
end

