-- ==== Sys2Proof/Machine/HostProgram.lean ====
section
/-! DEFINITION. The host agent: one step of a host program in the spec's notation (30_encoding.md R92), and the
pseudo-instructions (R93). -/

namespace Sys2Proof.Machine

/-- The value of host variable x; before its first assignment a free value (log 9). -/
def lookupVar : List (Nat × Word) → Nat → Word
  | [], x => Config.hostVariable x
  | (y, w) :: rest, x => if y = x then w else lookupVar rest x

/-- Assign host variable x, keeping the variables in rising order. -/
def assignVar : List (Nat × Word) → Nat → Word → List (Nat × Word)
  | [], x, v => [(x, v)]
  | (y, w) :: rest, x, v =>
    if x < y then (x, v) :: (y, w) :: rest
    else if x = y then (x, v) :: rest
    else (y, w) :: assignVar rest x v

/-- The value of a host write's operand (30_encoding.md R92). -/
def State.hostValue (s : State) : HostValue → Word
  | .imm v => v
  | .var x => lookupVar s.host.vars x

/-- The host goes to line n. -/
def State.hostGoto (s : State) (n : Nat) : State := { s with host := { s.host with line := n } }

/-- The host goes to the next line. -/
def State.hostNext (s : State) : State := s.hostGoto (s.host.line + 1)

/-- The host assigns v to x and goes to the next line. -/
def State.hostAssign (s : State) (x : Nat) (v : Word) : State :=
  { s with host := { s.host with vars := assignVar s.host.vars x v, line := s.host.line + 1 } }

/-- The host takes a branch to label l; a program without that label has no meaning there (log 9). -/
def State.hostJump (s : State) (l : Nat) : Host.Outcome State Fault Refusal :=
  match s.host.program.findIdx? (· == .label l) with
  | some n => .next (s.hostGoto n)
  | none => .refused (.undefinedLabel l)

/-- Branch to l if c, else go on. -/
def State.hostBranch (s : State) (c : Bool) (l : Nat) : Host.Outcome State Fault Refusal :=
  if c then s.hostJump l else .next s.hostNext

/-- y[hi:lo], zero-extended, for lo <= hi <= 31 (00_scope.md R15). State.extract reads it for such hi and lo alone. -/
def bitField (y : Word) (hi lo : Nat) : Word := (y.extractLsb' lo (hi + 1 - lo)).setWidth 32

/-- The value EXT assigns: y[hi:lo] where that is a field of a word (00_scope.md R15). DESIGN CHOICE (log 21): for
hi < lo or hi > 31 the spec gives no value, so the line runs and assigns a free one. -/
def State.extract (s : State) (y hi lo : Nat) : Word × State :=
  if lo ≤ hi && hi < 32 then (bitField (lookupVar s.host.vars y) hi lo, s) else s.drawWord

/-- The line the host stands at; none past the program's end. -/
def HostAgent.current (h : HostAgent) : Option HostLine := h.program[h.line]?

/-- The host program has ended: it stands at HALT or past its last line (30_encoding.md R92). -/
def HostAgent.ended (h : HostAgent) : Bool :=
  match h.current with
  | none => true
  | some l => l == .halt

/-- The meaning of one line (30_encoding.md R92, 20_memory.md R65). -/
def runLine (line : HostLine) (s : State) : Host.Outcome State Fault Refusal :=
  match line with
  | .wr r v => .next (s.regWrite r (s.hostValue v)).hostNext
  | .wb e v => .next (s.bufWrite e (s.hostValue v)).hostNext
  | .rd x r => .next ((s.regRead r).2.hostAssign x (s.regRead r).1)
  | .rb x e => .next ((s.bufRead e).2.hostAssign x (s.bufRead e).1)
  | .ext x y hi lo => .next ((s.extract y hi lo).2.hostAssign x (s.extract y hi lo).1)
  | .label _ => .next s.hostNext
  | .bz x mask l => s.hostBranch (lookupVar s.host.vars x &&& mask == 0) l
  | .bnz x mask l => s.hostBranch (lookupVar s.host.vars x &&& mask != 0) l
  | .beq x imm l => s.hostBranch (lookupVar s.host.vars x == imm) l
  | .j l => s.hostJump l
  | .halt => .next s
  | .memRead x addr width =>
    match busTarget s.params addr width with
    | .ok t => .next ((s.readTarget t).2.hostAssign x (s.readTarget t).1)
    | .error r => .refused r
  | .memWrite addr width v =>
    match busTarget s.params addr width with
    | .ok t => .next (s.writeTarget t (s.hostValue v)).hostNext
    | .error r => .refused r

/-- One step of the host; a program that has ended does nothing more. -/
def hostStep (s : State) : Host.Outcome State Fault Refusal :=
  match s.host.current with
  | some line => runLine line s
  | none => .next s

/-- Load a host program: the host stands at its first line with no variable assigned. -/
def State.withProgram (s : State) (program : List HostLine) : State :=
  { s with host := { program := program, line := 0, vars := [] } }

/-! ### Pseudo-instructions (30_encoding.md R93) -/

/-- The writes of LOADSTR's characters from element k on. -/
def loadSymbols : Nat → List Byte → List HostLine
  | _, [] => []
  | k, c :: cs => .wb (.elem .inBuf k) (.imm (c.setWidth 32)) :: loadSymbols (k + 1) cs

/-- `LOADSTR`: IN_LEN, then each character's 8-bit code. -/
def loadStr (codes : List Byte) : List HostLine :=
  .wr .inLen (.imm (Word.ofCount codes.length)) :: loadSymbols 0 codes

/-- `START op`: WR CTRL, 0x10 + op. -/
def startOp (op : BitVec 2) : List HostLine := [.wr .ctrl (.imm (0x10#32 + op.setWidth 32))]

/-- `SETOP op`: WR CTRL, op. -/
def setOp (op : BitVec 2) : List HostLine := [.wr .ctrl (.imm (op.setWidth 32))]

/-- `ENCODE` and `DECODE`: WR CTRL with the command word. -/
def startInstr (i : Instr) : List HostLine := [.wr .ctrl (.imm (Sys2Proof.encode i))]

/-- `WAITDONE x`: poll STATUS until DONE = 1, with l a fresh label. -/
def waitDone (x l : Nat) : List HostLine := [.label l, .rd x .status, .bz x 0x2#32 l]

end Sys2Proof.Machine
end

