-- ==== Sys2Proof/Machine/Schedule.lean ====
section
/-! DEFINITION. Which agent moves next (10_state.md R20, 20_memory.md R70, R71, 70_reset_and_hazards.md R310, R321), as
plain data of the state, and what the schedule's own fields do in a step. -/

namespace Sys2Proof.Machine

/-- The agents of one step. -/
inductive Agent where
  | reset
  | core
  | host
deriving DecidableEq, Repr

/-- An external reset arrives at this step (log 10). -/
def State.resetArrives (s : State) : Bool :=
  match s.resets with
  | 0 :: _ => true
  | _ => false

/-- An arriving reset comes first. The core completes once the drawn latency is spent, or when the host program has
ended and makes no further access; else the host moves (70_reset_and_hazards.md R321; log 3). -/
def State.nextAgent (s : State) : Agent :=
  if s.resetArrives then .reset
  else if s.busy && (s.latency == 0 || s.host.ended) then .core
  else .host

/-- The wait for the next reset grows one step shorter. -/
def countdown : List Nat → List Nat
  | [] => []
  | n :: rest => (n - 1) :: rest

/-- A step in which no reset arrives. -/
def State.tick (s : State) : State := { s with resets := countdown s.resets }

/-- A host step while an operation is in flight uses up one step of its latency. -/
def State.spendLatency (s : State) : State := { s with latency := s.latency - 1 }

/-- The arriving reset takes effect and leaves the input list (70_reset_and_hazards.md R310). -/
def State.takeReset (s : State) : State := { s.applyReset with resets := s.resets.tail }

/-- The state right after command word v was accepted, with the core to move next: as RegWrite(CTRL, v) leaves it
(30_encoding.md R81), no latency to spend and no reset due (log 11). A word that is no START leaves the block idle. -/
def State.accepted (s : State) (v : Word) : State :=
  { s with
    ctrlOp := opField v
    busy := startField v
    done := s.done && !startField v
    latency := 0
    resets := [] }

end Sys2Proof.Machine
end

