-- ==== Sys2Proof/Machine/Step.lean ====
section
/-! DEFINITION. One step of the machine (10_state.md R20, 20_memory.md R71): an arriving reset, or the core's completion,
or one step of the host. -/

namespace Sys2Proof.Machine

/-- One step. Which agent moves is plain data in the state (log 3, log 10). -/
def step (s : State) : Host.Outcome State Fault Refusal :=
  match s.nextAgent with
  | .reset => .next s.takeReset
  | .core => complete s.tick
  | .host => hostStep s.tick.spendLatency

/-- The state in which the command word w has been accepted and the core moves next, so that the next step runs its
operation (log 11). -/
def State.withFetchWord (s : State) (nbits w : Nat) : State := s.accepted (tableWord nbits w)

end Sys2Proof.Machine
end

