-- ==== Sys2Proof/Machine/Platform.lean ====
section
/-! DEFINITION. A platform with any number of blocks (60_exceptions.md R288): each has its own parameters, state and
host, and they share nothing (log 16). DESIGN CHOICE (log 16): the draws of Config.freeWord, Config.resetElement and
Config.latency are numbered by each block's own counter and carry no block identity, so two blocks with equal counters
draw equal values; the spec relates no two blocks' values. -/

namespace Sys2Proof.Machine

/-- The blocks of a platform. A claim that two blocks' free values are equal rests on the model's choice (log 16). -/
abbrev Platform := List State

/-- Block k makes one step; none where it has no next state or there is no block k. -/
def Platform.stepAt (p : Platform) (k : Nat) : Option Platform :=
  match p[k]? with
  | none => none
  | some s =>
    match step s with
    | .next s' => some (p.set k s')
    | .fault _ => none
    | .refused _ => none

end Sys2Proof.Machine
end

