-- ==== Sys2Proof/WellFormed.lean ====
section
/-! DEFINITION. Well-formedness: of operations (they have no operands, so all are), of parameters (00_scope.md R8, R9;
20_memory.md R64), of host lines and host programs (20_memory.md R65, 30_encoding.md R92). -/

namespace Sys2Proof

/-- An operation carries no operand that could be ill-formed (30_encoding.md R83). -/
def Instr.wf : Instr → Bool
  | .encode => true
  | .decode => true

/-- The bus address ranges the block occupies, as (first address, bytes): the register space and the windows
(20_memory.md R64). -/
def Params.ranges (p : Params) : List (Nat × Nat) :=
  let w := p.windows
  [(p.base, 256),
   (w.inBuf, 4 * p.maxLen), (w.outBuf, 4 * p.maxLen), (w.origBuf, 4 * p.maxLen), (w.corrBuf, 4 * p.maxLen),
   (w.ptabPos, 4 * p.pMax), (w.ptabVal, 4 * p.pMax), (w.ptabCnt, 4 * p.pMax),
   (w.ptabAff, 4 * (p.pMax * p.maxLen)),
   (w.logKind, 4 * p.logMax), (w.logA, 4 * p.logMax), (w.logB, 4 * p.logMax), (w.logC, 4 * p.logMax)]

/-- Two address ranges share no address. -/
def disjointRanges (a b : Nat × Nat) : Bool := a.1 + a.2 ≤ b.1 || b.1 + b.2 ≤ a.1

/-- Legal parameters: 1 <= MAX_LEN <= 2^31 - 1 (00_scope.md R8); every base a multiple of 4 and no overlap
(20_memory.md R64). -/
def Params.wf (p : Params) : Bool :=
  1 ≤ p.maxLen && p.maxLen ≤ 2 ^ 31 - 1
    && p.ranges.all (fun r => r.1 % 4 == 0)
    && decide (p.ranges.Pairwise (fun a b => disjointRanges a b = true))

/-- An address lies inside the register space or a window (20_memory.md R65). -/
def Params.holdsAddress (p : Params) (a : Nat) : Bool := p.ranges.any (fun r => r.1 ≤ a && a < r.1 + r.2)

/-- The only admitted bus access: 4 bytes, aligned, inside the register space or a window (20_memory.md R65). -/
def Params.admitted (p : Params) (addr width : Nat) : Bool :=
  width == 4 && addr % 4 == 0 && p.holdsAddress addr

/-- A line of a host program is well formed in its program: its access is admitted, its bit field is a field of a
word, its label stands in the program (20_memory.md R65, 00_scope.md R15, 30_encoding.md R92). -/
def HostLine.wf (p : Params) (program : List HostLine) : HostLine → Bool
  | .wr _ _ | .wb _ _ | .rd _ _ | .rb _ _ | .label _ | .halt => true
  | .ext _ _ hi lo => lo ≤ hi && hi < 32
  | .bz _ _ l | .bnz _ _ l | .beq _ _ l | .j l => program.contains (.label l)
  | .memRead _ addr width | .memWrite addr width _ => p.admitted addr width

/-- The labels a program declares, in order. -/
def labelsOf : List HostLine → List Nat
  | [] => []
  | .label l :: rest => l :: labelsOf rest
  | .wr _ _ :: rest | .wb _ _ :: rest | .rd _ _ :: rest | .rb _ _ :: rest | .ext _ _ _ _ :: rest
  | .bz _ _ _ :: rest | .bnz _ _ _ :: rest | .beq _ _ _ :: rest | .j _ :: rest | .halt :: rest
  | .memRead _ _ _ :: rest | .memWrite _ _ _ :: rest => labelsOf rest

/-- A host program: every line is well formed and no label stands twice. -/
def programWf (p : Params) (program : List HostLine) : Bool :=
  program.all (HostLine.wf p program) && decide (labelsOf program).Nodup

end Sys2Proof
end

