-- ==== Sys2Proof/Safety.lean ====
section
/-! DEFINITION. The terms the claims use: what an operation's input is, the invariant of the block, and what a safe host
program is. -/

namespace Sys2Proof.Machine

/-- The input of the next operation is bit string d: IN_LEN is its length and IN_BUF[k] the symbol of position k + 1
(30_encoding.md R83 to R85, 20_memory.md R66). -/
def State.hasInput (s : State) (d : BitString) : Prop :=
  s.inLen.toNat = d.length ∧ ∀ k, (h : k < d.length) → s.inputSymbol k = symbolOfBit d[k]

/-- Every input symbol of an operation is 0x30 or 0x31 (60_exceptions.md R271). -/
def State.symbolsValid (s : State) : Prop :=
  ∀ k, k < s.inLen.toNat → s.inputSymbol k = 0x30#8 ∨ s.inputSymbol k = 0x31#8

/-- The operands on which an ENCODE of payload d succeeds: a non-empty payload whose codeword fits (42_encode.md R170). -/
def State.encodable (s : State) (d : BitString) : Prop :=
  s.hasInput d ∧ d ≠ [] ∧ d.length + requiredParityBits d.length ≤ s.params.maxLen

/-- The operands on which a DECODE of received string b passes its checks (44_decode.md R235). -/
def State.decodable (s : State) (b : BitString) : Prop :=
  s.hasInput b ∧ b ≠ [] ∧ b.length ≤ s.params.maxLen

/-- GROUP_OFFSET of a state's parameters (00_scope.md R9). -/
def State.off (s : State) : Nat := s.params.groupRule.offset

/-- The data positions in 1..n, ascending (40_classifier.md R112). -/
def dataPositions (n : Nat) : List Nat := (List.range' 1 n).filter fun j => !isParityPosition j

/-- The first r parity positions 1, 2, ..., 2^(r-1) (40_classifier.md R117). -/
def parityPositions (r : Nat) : List Nat := (List.range r).map (2 ^ ·)

/-- c with every parity position set to 0: the placeholder codeword of a codeword (42_encode.md R163). -/
def clearParity (c : BitString) : BitString :=
  (List.range' 1 c.length).map fun j => !isParityPosition j && bitAt c j

/-- c with every parity position from p on set to 0: the codeword as it stands when parity p is computed
(42_encode.md R164). -/
def clearParityFrom (c : BitString) (p : Nat) : BitString :=
  (List.range' 1 c.length).map fun j => !(isParityPosition j && decide (p ≤ j)) && bitAt c j

/-- c with the bit at position j flipped. -/
def flipBit (c : BitString) (j : Nat) : BitString := setBit c j (!bitAt c j)

/-- What a completion never writes: CTRL, IN_LEN, IN_BUF (10_state.md R50), and nothing else outside STATUS and the
result state: the parameters and the model's own inputs and counters. -/
structure CoreFrame (s t : State) : Prop where
  ctrlOp : t.ctrlOp = s.ctrlOp
  inLen : t.inLen = s.inLen
  inBuf : t.inBuf = s.inBuf
  symbols : ∀ k, t.inputSymbol k = s.inputSymbol k
  params : t.params = s.params
  draws : t.draws = s.draws
  resetDraw : t.resetDraw = s.resetDraw
  resets : t.resets = s.resets
  host : t.host = s.host

/-- A completion: the block goes from BUSY to DONE, and the frame holds (60_exceptions.md R276). -/
def State.completesAs (s t : State) (r : ResultState) : Prop :=
  t.busy = false ∧ t.done = true ∧ t.result = r ∧ CoreFrame s t

/-- Variable x now holds v and the host stands at the next line; every other variable, the host's program and the whole
block are as before (30_encoding.md R92). -/
def State.assigns (s t : State) (x : Nat) (v : Word) : Prop :=
  t = { s with host := { s.host with vars := t.host.vars, line := s.host.line + 1 } } ∧
    lookupVar t.host.vars x = v ∧ ∀ z, z ≠ x → lookupVar t.host.vars z = lookupVar s.host.vars z

/-- The flag relations of 10_state.md R47. -/
structure ResultState.FlagsAgree (r : ResultState) : Prop where
  error : r.error = true ↔ r.code = .uncorrectable
  edValid : r.orig.isSome = true ↔ r.code = .corrected ∨ r.code = .uncorrectable
  corrValid : r.corr.isSome = true ↔ r.code = .corrected
  outValid : r.out.isSome = true ↔ r.code = .ok ∨ r.code = .corrected

/-- Every field of a result fits the buffers and registers it is read from (00_scope.md R10, R12; 10_state.md R35, R36;
43_min_distance.md R204; 44_decode.md R243). -/
structure ResultState.Fits (p : Params) (r : ResultState) : Prop where
  out : lengthOf r.out ≤ p.maxLen
  orig : lengthOf r.orig ≤ p.maxLen
  corr : r.corr.isSome = true → lengthOf r.corr = lengthOf r.orig
  errPos : r.errPos < 2 * p.maxLen
  errPosZero : r.errPos = 0 ↔ r.orig = none
  table : r.ptab.length ≤ p.pMax
  affected : ∀ e ∈ r.ptab, e.affectedPositions.length ≤ p.maxLen
  events : r.log.length ≤ p.logMax
  hdist : r.hdist ≤ p.pMax
  detect : r.detect ≤ p.pMax
  correct : r.correct ≤ p.pMax

/-- The invariant of the block. -/
structure State.Inv (s : State) : Prop where
  /-- the parameters are legal (00_scope.md R8, 20_memory.md R64) -/
  params : s.params.wf = true
  /-- IN_BUF is in its canonical form (10_state.md R38) -/
  memory : Memory.wf s.params.maxLen s.inBuf
  /-- BUSY = 1, DONE = 1 never occurs (10_state.md R27) -/
  phase : ¬(s.busy = true ∧ s.done = true)
  /-- IDLE is the state after reset: nothing has completed (10_state.md R27, R46) -/
  idle : s.busy = false → s.done = false → s.result = ResultState.empty .none
  /-- DONE means an operation completed (30_encoding.md R86) -/
  doneCode : s.done = true → s.result.code ≠ .none
  /-- the flags agree with the code (10_state.md R47) -/
  flags : s.result.FlagsAgree
  /-- no capacity overflows (00_scope.md R12) -/
  fits : s.result.Fits s.params

/-- The host program of a state is well formed for the block's parameters: no step of it is refused. -/
def State.hostWf (s : State) : Prop := programWf s.params s.host.program = true

/-- No reset arrives at this step and the core has the next move: an operation is in flight and its latency is spent
or the host program has ended (60_exceptions.md R276; log 3). -/
def State.coreMoves (s : State) : Prop :=
  s.resetArrives = false ∧ s.busy = true ∧ (s.latency = 0 ∨ s.host.ended = true)

/-- No reset arrives at this step and the host has the next move, at the given line (log 3). -/
def State.hostMoves (s : State) (line : HostLine) : Prop :=
  s.resetArrives = false ∧ (s.busy = true → s.latency ≠ 0) ∧ s.host.current = some line ∧ line ≠ .halt

end Sys2Proof.Machine
end

