-- ==== Sys2Proof/Certificates/Slice0/Obligations.lean ====
section
/-! DEFINITION. The statements for the provers. Each docstring names the rules of spec/ it formalises. -/

open Sys2Proof Sys2Proof.Machine

/-! ### Command words -/

/-- R81: RegWrite(CTRL, v) is ignored while busy; otherwise CTRL.OP takes v[1:0]; v[4] = 1 sets BUSY, which enables
the completion, and clears DONE; v[4] = 0 changes CTRL.OP alone. Nothing else the spec gives the block changes. -/
def Obligations.CtrlWriteEffect : Prop :=
  ∀ (s : State) (v : Word),
    let t := s.regWrite .ctrl v
    (s.busy = true → t = s) ∧
    (s.busy = false → v.getLsbD 4 = false → t = { s with ctrlOp := v.extractLsb' 0 2 }) ∧
    (s.busy = false → v.getLsbD 4 = true →
      t.ctrlOp = v.extractLsb' 0 2 ∧ t.busy = true ∧ t.done = false ∧ t.inLen = s.inLen ∧ t.inBuf = s.inBuf ∧
        t.result = s.result ∧ t.params = s.params ∧ t.host = s.host ∧ t.resets = s.resets)

/-- R87: the table of CTRL write values by v & 0x13, total over all words, while not busy: which completion each word
enables, or that it only sets CTRL.OP; while busy every value is ignored. -/
def Obligations.CommandTableIsTotal : Prop :=
  ∀ (s : State) (v : Word),
    let t := s.regWrite .ctrl v
    (s.busy = true → t = s) ∧
    (s.busy = false →
      if v &&& 0x13#32 = 0x11#32 then t.busy = true ∧ complete t = exec .encode t
      else if v &&& 0x13#32 = 0x12#32 then t.busy = true ∧ complete t = exec .decode t
      else if v &&& 0x13#32 = 0x10#32 then
        t.busy = true ∧ t.ctrlOp = 0b00#2 ∧ ∃ u, complete t = .next u ∧ u.result = ResultState.empty .illegalOp
      else if v &&& 0x13#32 = 0x13#32 then
        t.busy = true ∧ t.ctrlOp = 0b11#2 ∧ ∃ u, complete t = .next u ∧ u.result = ResultState.empty .illegalOp
      else (v &&& 0x13#32).toNat < 4 ∧ t = { s with ctrlOp := v.extractLsb' 0 2 })

/-- R90, second item: CTRL bits 3:2 and 31:5 are ignored: two words that agree in bits 4, 1 and 0 write alike. -/
def Obligations.IgnoredCommandBits : Prop :=
  ∀ (s : State) (v w : Word), v &&& 0x13#32 = w &&& 0x13#32 → s.regWrite .ctrl v = s.regWrite .ctrl w

/-- Decode and encode agree: a word decodes to i exactly when its bits 4, 1 and 0 are those of i's command word, and
the decoder rejects every other word by name (R82, R87, R93). -/
def Obligations.DecodeEncodeAgree : Prop :=
  (∀ i : Instr, i.wf = true → decode (encode i) = .ok i) ∧
  (∀ (v : Word) (i : Instr), decode v = .ok i ↔ v &&& 0x13#32 = encode i) ∧
  (∀ v : Word, v.getLsbD 4 = false → decode v = .error .noStart) ∧
  (∀ v : Word, v.getLsbD 4 = true → v.extractLsb' 0 2 = 0b00#2 ∨ v.extractLsb' 0 2 = 0b11#2 →
    decode v = .error (.reservedOp (v.extractLsb' 0 2)))

/-- Words of the opcode table, some with ignored bits set, decode to the instruction they stand for (R82, R87). -/
def Obligations.TableWordsDecode : Prop :=
  decodeTableWord 32 0x00000011 = some .encode ∧ decodeTableWord 32 0x00000012 = some .decode ∧
  decodeTableWord 32 0xFFFFFFF1 = some .encode ∧ decodeTableWord 32 0x0000001E = some .decode ∧
  decodeTableWord 32 0x00000010 = none ∧ decodeTableWord 32 0x00000013 = none ∧ decodeTableWord 32 0x00000001 = none

/-! ### Steps -/

/-- A step in which the core moves (log 3) is the operation CTRL.OP names (R276), run on the state one step nearer to
the next external reset (log 10). -/
def Obligations.StepRunsOperationInFlight : Prop :=
  ∀ s : State, s.coreMoves →
    let u : State := { s with resets := countdown s.resets }
    step s = complete u ∧
    (s.ctrlOp = 0b01#2 → step s = exec .encode u) ∧
    (s.ctrlOp = 0b10#2 → step s = exec .decode u) ∧
    (s.ctrlOp = 0b00#2 ∨ s.ctrlOp = 0b11#2 → ∃ t, step s = .next t ∧ t.result = ResultState.empty .illegalOp)

/-- A command word that decodes to i, placed where the core takes its next operation, is run by the very next step
(R81, R276; log 11). -/
def Obligations.FetchedCommandRuns : Prop :=
  ∀ (s : State) (v : Word) (i : Instr), decode v = .ok i →
    step (s.withFetchWord 32 v.toNat) = exec i (s.withFetchWord 32 v.toNat)

/-- R92: when the host moves, the step is its current line; WR and WB write their immediate, or the value of their host
variable, each then going to the next line. RD and RB assign the value read to their variable, go to the next line,
and leave the block and every other variable as the read leaves them: as they were, but for the model's counter of free
values (R62, R63; log 4). The countdowns are the model's own (log 3, log 10). -/
def Obligations.HostLineRuns : Prop :=
  ∀ (s : State) (line : HostLine), s.hostMoves line →
    let u : State := { s with resets := countdown s.resets, latency := s.latency - 1 }
    step s = runLine line u ∧
    (∀ r v, line = .wr r (.imm v) → step s = .next (u.regWrite r v).hostNext) ∧
    (∀ r y, line = .wr r (.var y) → step s = .next (u.regWrite r (lookupVar s.host.vars y)).hostNext) ∧
    (∀ e v, line = .wb e (.imm v) → step s = .next (u.bufWrite e v).hostNext) ∧
    (∀ e y, line = .wb e (.var y) → step s = .next (u.bufWrite e (lookupVar s.host.vars y)).hostNext) ∧
    (∀ x r, line = .rd x r →
      let t := (u.regRead r).2.hostAssign x (u.regRead r).1
      step s = .next t ∧ (u.assigns t x (u.regRead r).1 ∨
        u.busy = true ∧ { u with draws := u.draws + 1 }.assigns t x (u.regRead r).1)) ∧
    (∀ x e, line = .rb x e →
      let t := (u.bufRead e).2.hostAssign x (u.bufRead e).1
      step s = .next t ∧
        (u.assigns t x (u.bufRead e).1 ∨ { u with draws := u.draws + 1 }.assigns t x (u.bufRead e).1))

/-- R92, R15: EXT assigns y[hi:lo], zero-extended, and changes no other variable and nothing of the block; the branches
test what the notation says and go to the line of their label, or on to the next line. Bits that are no field of a word,
for which the spec gives no value, give EXT a free value, which moves the counter of free values, and the line goes on:
the model's choice (log 21). -/
def Obligations.HostControlForms : Prop :=
  ∀ (s : State) (x y hi lo l : Nat) (w : Word), lo ≤ hi → hi < 32 → s.host.program.contains (.label l) = true →
    (∃ v, v.toNat = (lookupVar s.host.vars y).toNat / 2 ^ lo % 2 ^ (hi + 1 - lo) ∧
      runLine (.ext x y hi lo) s = .next (s.hostAssign x v) ∧ s.assigns (s.hostAssign x v) x v) ∧
    (∀ hi' lo' : Nat, ¬(lo' ≤ hi' ∧ hi' < 32) →
      let u : State := { s with draws := s.draws + 1 }
      let t := u.hostAssign x (Config.freeWord s.draws)
      runLine (.ext x y hi' lo') s = .next t ∧ u.assigns t x (Config.freeWord s.draws)) ∧
    runLine (.label l) s = .next s.hostNext ∧ runLine .halt s = .next s ∧
    ∃ n, s.host.program[n]? = some (.label l) ∧
      runLine (.j l) s = .next (s.hostGoto n) ∧
      runLine (.bz x w l) s = .next (if lookupVar s.host.vars x &&& w = 0 then s.hostGoto n else s.hostNext) ∧
      runLine (.bnz x w l) s = .next (if lookupVar s.host.vars x &&& w ≠ 0 then s.hostGoto n else s.hostNext) ∧
      runLine (.beq x w l) s = .next (if lookupVar s.host.vars x = w then s.hostGoto n else s.hostNext)

/-! ### Both operations: completion, frame, exceptions -/

/-- Completion and frame of ENCODE, of DECODE and of every completion: each answers a next state in which the block is
DONE (R276, R285), and writes STATUS and the result state alone: CTRL.OP, IN_LEN, every byte of IN_BUF and all else are
as before (R50). That they answer so where BUSY = 0 too, where R276 enables no completion, is the model's choice
(log 2). -/
def Obligations.OperationsCompleteAndKeepInputs : Prop :=
  (∀ (i : Instr) (s : State), ∃ t, exec i s = .next t ∧ t.busy = false ∧ t.done = true ∧ CoreFrame s t) ∧
  (∀ s : State, ∃ t, complete s = .next t ∧ t.busy = false ∧ t.done = true ∧ CoreFrame s t)

/-- R274: a START whose CTRL.OP is reserved completes with Empty(ILLEGAL_OP), whatever IN_LEN and IN_BUF hold, and
CTRL.OP keeps the reserved value. -/
def Obligations.ReservedOpCompletesIllegal : Prop :=
  ∀ (s : State) (v : Word), s.busy = false → v.getLsbD 4 = true →
    v.extractLsb' 0 2 = 0b00#2 ∨ v.extractLsb' 0 2 = 0b11#2 →
    let u := s.regWrite .ctrl v
    u.busy = true ∧
    ∀ (n : Word) (m : Memory), ∃ t, complete { u with inLen := n, inBuf := m } = .next t ∧
      { u with inLen := n, inBuf := m }.completesAs t (ResultState.empty .illegalOp) ∧ t.ctrlOp = v.extractLsb' 0 2

/-- R276: a completion runs the operation CTRL.OP names, and the first condition that holds, in the order reserved OP,
IN_LEN = 0, IN_LEN > MAX_LEN, a bad symbol, an ENCODE codeword that does not fit, decides the code; an operation that
passes every check ends with OK, CORRECTED or UNCORRECTABLE. -/
def Obligations.CompletionChecksInOrder : Prop :=
  ∀ s : State, s.busy = true → ∃ t, complete s = .next t ∧ s.completesAs t t.result ∧
    (s.ctrlOp = 0b01#2 → exec .encode s = .next t) ∧ (s.ctrlOp = 0b10#2 → exec .decode s = .next t) ∧
    (s.ctrlOp ≠ 0b01#2 → s.ctrlOp ≠ 0b10#2 → t.result = ResultState.empty .illegalOp) ∧
    (s.ctrlOp = 0b01#2 ∨ s.ctrlOp = 0b10#2 →
      (s.inLen.toNat = 0 → t.result = ResultState.empty .invalidInput) ∧
      (s.inLen.toNat ≠ 0 → s.params.maxLen < s.inLen.toNat → t.result = ResultState.empty .lengthError) ∧
      (s.inLen.toNat ≠ 0 → s.inLen.toNat ≤ s.params.maxLen → ¬s.symbolsValid →
        t.result = ResultState.empty .invalidInput) ∧
      (s.inLen.toNat ≠ 0 → s.inLen.toNat ≤ s.params.maxLen → s.symbolsValid →
        if s.ctrlOp = 0b01#2 ∧ s.params.maxLen < s.inLen.toNat + requiredParityBits s.inLen.toNat then
          t.result = ResultState.empty .lengthError
        else t.result.code ∈ [ResultCode.ok, .corrected, .uncorrectable]))

/-- R170, R276: ENCODE's exceptions in their order, and that it raises nothing else. -/
def Obligations.EncodeExceptionsInOrder : Prop :=
  ∀ s : State, ∃ t, exec .encode s = .next t ∧
    (s.inLen.toNat = 0 → t.result = ResultState.empty .invalidInput) ∧
    (s.params.maxLen < s.inLen.toNat → s.inLen.toNat ≠ 0 → t.result = ResultState.empty .lengthError) ∧
    (s.inLen.toNat ≠ 0 → s.inLen.toNat ≤ s.params.maxLen → ¬s.symbolsValid →
      t.result = ResultState.empty .invalidInput) ∧
    (s.inLen.toNat ≠ 0 → s.inLen.toNat ≤ s.params.maxLen → s.symbolsValid →
      s.params.maxLen < s.inLen.toNat + requiredParityBits s.inLen.toNat →
      t.result = ResultState.empty .lengthError) ∧
    (s.inLen.toNat ≠ 0 → s.inLen.toNat ≤ s.params.maxLen → s.symbolsValid →
      s.inLen.toNat + requiredParityBits s.inLen.toNat ≤ s.params.maxLen → t.result.code = .ok)

/-- R235, R276: DECODE's exceptions in their order, and that it raises nothing else. -/
def Obligations.DecodeExceptionsInOrder : Prop :=
  ∀ s : State, ∃ t, exec .decode s = .next t ∧
    (s.inLen.toNat = 0 → t.result = ResultState.empty .invalidInput) ∧
    (s.params.maxLen < s.inLen.toNat → s.inLen.toNat ≠ 0 → t.result = ResultState.empty .lengthError) ∧
    (s.inLen.toNat ≠ 0 → s.inLen.toNat ≤ s.params.maxLen → ¬s.symbolsValid →
      t.result = ResultState.empty .invalidInput) ∧
    (s.inLen.toNat ≠ 0 → s.inLen.toNat ≤ s.params.maxLen → s.symbolsValid →
      t.result.code = .ok ∨ t.result.code = .corrected ∨ t.result.code = .uncorrectable)

/-- R277: a completion replaces the whole result state, whatever it was, and an exception leaves Empty(code): the
counts and values all read 0, STATUS holds DONE and the code alone, no element of the parity table or the log is
left.
That results read so from the completion on, before any STATUS read returns DONE = 1, is the model's reading (log 22). -/
def Obligations.ExceptionLeavesNothing : Prop :=
  ∀ s t : State, complete s = .next t →
    (∀ r, complete { s with result := r } = .next t) ∧
    (t.result.code = .invalidInput ∨ t.result.code = .illegalOp ∨ t.result.code = .lengthError →
      t.result = ResultState.empty t.result.code ∧
      (∀ r : Reg, r ∈ [Reg.outLen, .npar, .hdist, .detect, .correct, .errPos, .edLen, .logCnt] →
        (t.regRead r).1 = 0) ∧
      t.result.error = false ∧ t.result.edValid = false ∧ t.result.outValid = false ∧ t.result.corrValid = false ∧
      (t.regRead .status).1 = BitVec.ofNat 32 (2 + 16 * t.result.code.number) ∧
      (∀ e : ElemRef, t.result.elem e = none))

/-- R47: the flag relations hold in every result state a completion writes. -/
def Obligations.CompletionFlagsAgree : Prop :=
  ∀ s t : State, complete s = .next t →
    (t.result.error = true ↔ t.result.code = .uncorrectable) ∧
    (t.result.edValid = true ↔ t.result.code = .corrected ∨ t.result.code = .uncorrectable) ∧
    (t.result.corrValid = true ↔ t.result.code = .corrected) ∧
    (t.result.outValid = true ↔ t.result.code = .ok ∨ t.result.code = .corrected)

/-- The STATUS word a host reads after each completion, as 95_test_vectors.md tabulates it from R26, R44 and R86. -/
def Obligations.StatusWordAfterCompletion : Prop :=
  ∀ s t : State, complete s = .next t →
    (t.result.code = .ok ∧ (t.regRead .status).1 = 0x00000412#32) ∨
    (t.result.code = .corrected ∧ (t.regRead .status).1 = 0x00000E22#32) ∨
    (t.result.code = .uncorrectable ∧ (t.regRead .status).1 = 0x00000332#32) ∨
    (t.result.code = .invalidInput ∧ (t.regRead .status).1 = 0x00000042#32) ∨
    (t.result.code = .illegalOp ∧ (t.regRead .status).1 = 0x00000052#32) ∨
    (t.result.code = .lengthError ∧ (t.regRead .status).1 = 0x00000062#32)

/-- R249 for both operations: the result depends on IN_LEN, the symbols below it, GROUP_OFFSET and MAX_LEN alone. -/
def Obligations.ResultDependsOnOperandsOnly : Prop :=
  ∀ (i : Instr) (s u : State),
    s.params.groupRule = u.params.groupRule → s.params.maxLen = u.params.maxLen → s.inLen = u.inLen →
    (∀ k, k < s.inLen.toNat → s.inputSymbol k = u.inputSymbol k) →
    ∃ t v, exec i s = .next t ∧ exec i u = .next v ∧ t.result = v.result

/-! ### The position classifier -/

/-- R110: isParityPosition is true exactly at the powers of two. -/
def Obligations.ParityPositionsArePowersOfTwo : Prop :=
  ∀ i : Nat, 1 ≤ i → (isParityPosition i = true ↔ ∃ k, i = 2 ^ k)

/-- R113: requiredParityBits(m) is the smallest r >= 1 with 2^r >= m + r + 1, and it is at least 2. -/
def Obligations.RequiredParityBitsIsLeast : Prop :=
  ∀ m : Nat, 1 ≤ m →
    2 ≤ requiredParityBits m ∧ m + requiredParityBits m + 1 ≤ 2 ^ requiredParityBits m ∧
    ∀ q, 1 ≤ q → m + q + 1 ≤ 2 ^ q → requiredParityBits m ≤ q

/-- R117: the parity and data positions of a codeword of length n = m + r, and of any length N. -/
def Obligations.CodewordPositionCounts : Prop :=
  (∀ m : Nat, 1 ≤ m →
    let r := requiredParityBits m
    let n := m + r
    2 ^ (r - 1) ≤ n ∧ n < 2 ^ r ∧ (List.range' 1 n).filter isParityPosition = parityPositions r ∧
    (dataPositions n).length = m ∧ flog2 n = r - 1) ∧
  (∀ N : Nat, 1 ≤ N →
    ((List.range' 1 N).filter isParityPosition).length = flog2 N + 1 ∧
    (dataPositions N).length = N - flog2 N - 1)

/-! ### Parity groups -/

/-- R136: position j lies in Group(n, q) iff q <= j <= n and (j + 1) & q != 0; the parity positions whose groups
contain j are the set bits of j + 1, or none when j + 1 is a power of two, the only case in which a set bit of j + 1
exceeds j. -/
def Obligations.GroupMembershipLaw : Prop :=
  ∀ n j : Nat, 1 ≤ j → j ≤ n → ∀ i : Nat,
    (j ∈ group 1 n (2 ^ i) ↔ 2 ^ i ≤ j ∧ (j + 1) &&& 2 ^ i ≠ 0) ∧
    ((∀ k, j + 1 ≠ 2 ^ k) → (j ∈ group 1 n (2 ^ i) ↔ (j + 1).testBit i = true)) ∧
    ((∃ k, j + 1 = 2 ^ k) → j ∉ group 1 n (2 ^ i)) ∧
    ((j + 1).testBit i = true → j < 2 ^ i → j + 1 = 2 ^ i)

/-- R137: the positions j with j + 1 a power of two lie in no group, and an error there changes no parity value. -/
def Obligations.UncoveredPositions : Prop :=
  ∀ k i n : Nat, 2 ^ (k + 1) - 1 ∉ group 1 n (2 ^ i) ∧
    ∀ (c : BitString) (v : Bit), parityValue 1 (setBit c (2 ^ (k + 1) - 1) v) (2 ^ i) = parityValue 1 c (2 ^ i)

/-- R138: Group(n, 1) is the list of even positions, with every parity position from 2 on; for p >= 2 the only parity
position of Group(n, p) is p; position 1 is in no group. -/
def Obligations.ParityPositionsInGroups : Prop :=
  ∀ n : Nat,
    group 1 n 1 = (List.range' 1 n).filter (fun j => j % 2 == 0) ∧
    (∀ k, 1 ≤ k → 2 ^ k ≤ n → 2 ^ k ∈ group 1 n 1 ∧ ∀ i, 2 ^ i ∈ group 1 n (2 ^ k) ↔ i = k) ∧
    (∀ i, 1 ∉ group 1 n (2 ^ i))

/-- R139: the run structure of the groups under both values of GROUP_OFFSET; under the textbook rule j lies in the
groups of its set bits, every position is covered, and a parity position is the only one of its own group. -/
def Obligations.GroupRuns : Prop :=
  ∀ n i j : Nat,
    (j ∈ group 1 n (2 ^ i) ↔
      2 ^ i ≤ j ∧ j ≤ n ∧ ∃ k, 2 ^ i - 1 + 2 * 2 ^ i * k ≤ j ∧ j ≤ 2 * 2 ^ i - 2 + 2 * 2 ^ i * k) ∧
    (j ∈ group 0 n (2 ^ i) ↔
      2 ^ i ≤ j ∧ j ≤ n ∧ ∃ k, 2 ^ i + 2 * 2 ^ i * k ≤ j ∧ j ≤ 2 * 2 ^ i - 1 + 2 * 2 ^ i * k) ∧
    (j ≤ n → (j ∈ group 0 n (2 ^ i) ↔ j.testBit i = true)) ∧
    (1 ≤ j → j ≤ n → ∃ k, j ∈ group 0 n (2 ^ k)) ∧
    (2 ^ i ≤ n → ∀ k, 2 ^ k ∈ group 0 n (2 ^ i) ↔ k = i)

/-! ### ENCODE -/

/-- R166, R168, R172: a successful ENCODE: the codeword cw has length m + r, the payload in order at its data positions
and at each parity position the parity value of its group over the placeholder codeword; the completion ends with code
OK, cw, the parity table, the step log and the metrics, and the frame of a completion. -/
def Obligations.EncodeWritesItsResult : Prop :=
  ∀ (s : State) (d : BitString), s.encodable d →
    ∃ (t : State) (cw : BitString), exec .encode s = .next t ∧ cw.length = d.length + requiredParityBits d.length ∧
      (dataPositions cw.length).map (bitAt cw) = d ∧
      (∀ i, i < requiredParityBits d.length → bitAt cw (2 ^ i) = parityValue s.off (clearParity cw) (2 ^ i)) ∧
      s.completesAs t
        { code := .ok, error := false, out := some cw, errPos := 0, orig := none, corr := none
          ptab := (List.range (requiredParityBits d.length)).map fun t =>
            { parityPosition := 2 ^ t, affectedPositions := group s.off cw.length (2 ^ t)
              parityValue := bitAt cw (2 ^ t) }
          hdist := flog2 d.length + 1, detect := flog2 d.length, correct := flog2 d.length / 2
          log := Event.len d.length (requiredParityBits d.length) ::
            ((parityPositions (requiredParityBits d.length)).map Event.placeholder ++
              (parityPositions (requiredParityBits d.length)).map fun p => Event.parity p (bitAt cw p)) }

/-- R173: the parity value ENCODE writes at 2^i is the parity value of its group over the codeword as it stands then,
with the smaller parity positions already written (R164), and equally over the placeholder codeword, for both values
of GROUP_OFFSET. -/
def Obligations.EncodeParityOrder : Prop :=
  ∀ (s : State) (d : BitString), s.encodable d →
    ∃ t cw, exec .encode s = .next t ∧ t.result.out = some cw ∧
      ∀ i, i < requiredParityBits d.length →
        bitAt cw (2 ^ i) = parityValue s.off (clearParityFrom cw (2 ^ i)) (2 ^ i) ∧
        bitAt cw (2 ^ i) = parityValue s.off (clearParity cw) (2 ^ i)

/-- R174: the closed form of the codeword's parity bits under the normative rule, over data bits alone. -/
def Obligations.EncodeParityClosedForm : Prop :=
  ∀ (s : State) (d : BitString), s.encodable d → s.params.groupRule = .normative →
    ∃ t cw, exec .encode s = .next t ∧ t.result.out = some cw ∧ (dataPositions cw.length).map (bitAt cw) = d ∧
      bitAt cw 1 = xorAt cw ((dataPositions cw.length).filter fun j => j % 2 == 0) ∧
      ∀ i, 1 ≤ i → i < requiredParityBits d.length →
        bitAt cw (2 ^ i) = xorAt cw ((group 1 cw.length (2 ^ i)).filter fun j => j != 2 ^ i)

/-- R175: the parity values recomputed over the final codeword. -/
def Obligations.RecheckedCodeword : Prop :=
  ∀ (s : State) (d : BitString), s.encodable d →
    ∃ t cw, exec .encode s = .next t ∧ t.result.out = some cw ∧
      (s.params.groupRule = .normative →
        (∀ i, 1 ≤ i → parityValue 1 cw (2 ^ i) = false) ∧
        parityValue 1 cw 1 = xorAt cw (parityPositions (requiredParityBits d.length))) ∧
      (s.params.groupRule = .textbook → ∀ i, parityValue 0 cw (2 ^ i) = false)

/-- R176: payloads that differ only in bits placed at positions 2^k - 1 get the same parity bits under the normative
rule. -/
def Obligations.UncoveredPayloadBits : Prop :=
  ∀ (s u : State) (d d' : BitString), s.encodable d → u.encodable d' → d.length = d'.length →
    s.params.groupRule = .normative → u.params.groupRule = .normative →
    (∀ k, k < d.length → (∀ q, (dataPositions (d.length + requiredParityBits d.length))[k]? ≠ some (2 ^ q - 1)) →
      d[k]? = d'[k]?) →
    ∃ t v cw cw', exec .encode s = .next t ∧ exec .encode u = .next v ∧ t.result.out = some cw ∧
      v.result.out = some cw' ∧ ∀ i, i < requiredParityBits d.length → bitAt cw (2 ^ i) = bitAt cw' (2 ^ i)

/-- R200, R201, R202: HDIST, DETECT and CORRECT after a successful ENCODE of a payload of length m, 2^k <= m < 2^(k+1).
That results read so from the completion on, before any STATUS read returns DONE = 1, is the model's reading (log 22). -/
def Obligations.EncodeMetrics : Prop :=
  ∀ (s : State) (d : BitString) (k : Nat), s.encodable d → 2 ^ k ≤ d.length → d.length < 2 ^ (k + 1) →
    ∃ t, exec .encode s = .next t ∧ t.result.hdist = k + 1 ∧ t.result.detect = k ∧ t.result.correct = k / 2 ∧
      (t.regRead .hdist).1 = BitVec.ofNat 32 (k + 1) ∧ (t.regRead .detect).1 = BitVec.ofNat 32 k ∧
      (t.regRead .correct).1 = BitVec.ofNat 32 (k / 2)

/-- What a host reads after a successful ENCODE (R30, R31, R36, R37, R39, R172, R178): STATUS, the counts, OUT_BUF.
That results read so from the completion on, before any STATUS read returns DONE = 1, is the model's reading (log 22). -/
def Obligations.EncodeRegisters : Prop :=
  ∀ (s : State) (d : BitString), s.encodable d →
    ∃ t cw, exec .encode s = .next t ∧ t.result.out = some cw ∧
      (t.regRead .status).1 = 0x00000412#32 ∧ (t.regRead .ctrl).1 = s.ctrlOp.setWidth 32 ∧
      (t.regRead .outLen).1 = BitVec.ofNat 32 (d.length + requiredParityBits d.length) ∧
      (t.regRead .npar).1 = BitVec.ofNat 32 (requiredParityBits d.length) ∧
      (t.regRead .logCnt).1 = BitVec.ofNat 32 (2 * requiredParityBits d.length + 1) ∧
      (t.regRead .errPos).1 = 0 ∧ (t.regRead .edLen).1 = 0 ∧
      ∀ k, k < d.length + requiredParityBits d.length →
        (t.bufRead (.elem .outBuf k)).1 = if bitAt cw (k + 1) then 0x31#32 else 0x30#32

/-! ### DECODE -/

/-- R227, R228, R231, R232 with the checks of R221 to R225: the three results of a DECODE of b, 2^K <= L < 2^(K+1), with
K + 1 checks, and the frame of a completion. -/
def Obligations.DecodeWritesItsResult : Prop :=
  ∀ (s : State) (b : BitString) (K : Nat), s.decodable b → 2 ^ K ≤ b.length → b.length < 2 ^ (K + 1) →
    let syn : Nat → Bit := fun i => parityValue s.off b (2 ^ i)
    let e := ((List.range (K + 1)).map fun i => if syn i then 2 ^ i else 0).sum
    let table : List Entry := (List.range (K + 1)).map fun i =>
      { parityPosition := 2 ^ i, affectedPositions := group s.off b.length (2 ^ i), parityValue := syn i }
    let checks := (List.range (K + 1)).map fun i => Event.check (2 ^ i) (syn i)
    ∃ t, exec .decode s = .next t ∧ s.completesAs t
      (if b.length < e then
        { code := .uncorrectable, error := true, out := none, errPos := e, orig := some b, corr := none
          ptab := table, hdist := 0, detect := 0, correct := 0, log := checks ++ [Event.uncorrectable e] }
      else if e = 0 then
        { code := .ok, error := false, out := some ((dataPositions b.length).map (bitAt b)), errPos := 0
          orig := none, corr := none
          ptab := table, hdist := 0, detect := 0, correct := 0, log := checks }
      else
        { code := .corrected, error := false
          out := some ((dataPositions b.length).map (bitAt (flipBit b e))), errPos := e
          orig := some b, corr := some (flipBit b e)
          ptab := table, hdist := 0, detect := 0, correct := 0, log := checks ++ [Event.correct e] })

/-- R223: the error position is the sum of the failing parity positions, and has the syndrome bits as its binary
digits. -/
def Obligations.ErrorPositionDigits : Prop :=
  ∀ (s : State) (b : BitString), s.decodable b →
    ∃ t, exec .decode s = .next t ∧
      t.result.errPos =
        ((List.range (flog2 b.length + 1)).map fun i => if parityValue s.off b (2 ^ i) then 2 ^ i else 0).sum ∧
      ∀ i, t.result.errPos.testBit i = (decide (2 ^ i ≤ b.length) && parityValue s.off b (2 ^ i))

/-- R241, R243, and the general part of R242: bounds of the error position; it fits in W bits; no string of length
2^K - 1 is UNCORRECTABLE. -/
def Obligations.ErrorPositionBounds : Prop :=
  ∀ (s : State) (b : BitString), s.decodable b →
    ∃ t, exec .decode s = .next t ∧ t.result.errPos ≤ 2 ^ (flog2 b.length + 1) - 1 ∧
      t.result.errPos < 2 * b.length ∧ 2 * b.length ≤ 2 * s.params.maxLen ∧
      (s.params.maxLen ≤ 2 ^ 31 - 1 → t.result.errPos < 2 ^ 32) ∧
      (b.length = 2 ^ (flog2 b.length + 1) - 1 → t.result.code ≠ .uncorrectable) ∧
      (t.result.code = .uncorrectable ↔ b.length < t.result.errPos)

/-- What a host reads after a DECODE (R30, R31, R35, R36, R37, R236, R244, R250): the counts, ERRPOS, and zeros in HDIST,
DETECT and CORRECT.
That results read so from the completion on, before any STATUS read returns DONE = 1, is the model's reading (log 22). -/
def Obligations.DecodeRegisters : Prop :=
  ∀ (s : State) (b : BitString), s.decodable b →
    ∃ t, exec .decode s = .next t ∧
      (t.regRead .npar).1 = BitVec.ofNat 32 (flog2 b.length + 1) ∧
      (t.regRead .errPos).1 = BitVec.ofNat 32 t.result.errPos ∧
      (t.regRead .hdist).1 = 0 ∧ (t.regRead .detect).1 = 0 ∧ (t.regRead .correct).1 = 0 ∧
      (t.regRead .logCnt).1 = BitVec.ofNat 32 (flog2 b.length + 1 + if t.result.errPos = 0 then 0 else 1) ∧
      (t.regRead .edLen).1 = BitVec.ofNat 32 (if t.result.errPos = 0 then 0 else b.length) ∧
      (t.regRead .outLen).1 =
        BitVec.ofNat 32 (if t.result.code = .uncorrectable then 0 else b.length - flog2 b.length - 1)

/-- R251, R252: a correction at a parity position leaves the payload bits of b; one at a data position changes exactly
that payload bit. RESULT is CORRECTED in both. -/
def Obligations.CorrectionAndPayload : Prop :=
  ∀ (s : State) (b : BitString), s.decodable b →
    ∃ t, exec .decode s = .next t ∧
      (1 ≤ t.result.errPos → t.result.errPos ≤ b.length →
        t.result.code = .corrected ∧ t.result.orig = some b ∧
        (isParityPosition t.result.errPos = true → t.result.out = some ((dataPositions b.length).map (bitAt b))) ∧
        (isParityPosition t.result.errPos = false →
          t.result.out = some ((dataPositions b.length).map fun j =>
            if j = t.result.errPos then !bitAt b j else bitAt b j) ∧
          t.result.errPos ∈ dataPositions b.length))

/-- R246: decoding a fresh codeword under the normative rule gives the payload back, never UNCORRECTABLE, with error
position the XOR of the codeword's parity bits: OK when it is 0, CORRECTED at 1 when it is 1. -/
def Obligations.RoundTripRecoversPayload : Prop :=
  ∀ (s : State) (d : BitString), s.encodable d → s.params.groupRule = .normative →
    ∃ t cw, exec .encode s = .next t ∧ t.result.out = some cw ∧
      ∀ u : State, u.params = s.params → u.hasInput cw →
        ∃ v, exec .decode u = .next v ∧ v.result.out = some d ∧ v.result.error = false ∧
          v.result.errPos = (xorAt cw (parityPositions (requiredParityBits d.length))).toNat ∧
          (v.result.errPos = 0 → v.result.code = .ok) ∧
          (v.result.errPos = 1 → v.result.code = .corrected ∧ v.result.corr = some (flipBit cw 1))

/-- R247: let e0 be the error position of decode(cw) for a fresh codeword cw under the normative rule. After a flip of
position j the error position is e0 XOR g(j), with g(j) = 0 when j + 1 is a power of two and j + 1 otherwise; so the
flip is located at j exactly when e0 = 1 and j is 1 or even, and then the corrected copy is the codeword. -/
def Obligations.SingleFlipLaw : Prop :=
  ∀ (s : State) (d : BitString), s.encodable d → s.params.groupRule = .normative →
    ∃ t cw, exec .encode s = .next t ∧ t.result.out = some cw ∧
      ∀ u0 : State, u0.params = s.params → u0.hasInput cw →
        ∃ v0, exec .decode u0 = .next v0 ∧
          let e0 := v0.result.errPos
          ∀ (u : State) (j : Nat), u.params = s.params → 1 ≤ j → j ≤ cw.length → u.hasInput (flipBit cw j) →
            ∃ v, exec .decode u = .next v ∧
              ((∃ q, j + 1 = 2 ^ q) → v.result.errPos = e0) ∧
              ((∀ q, j + 1 ≠ 2 ^ q) → v.result.errPos = e0 ^^^ (j + 1)) ∧
              (j % 2 = 0 → v.result.errPos = if e0 = 0 then j + 1 else j) ∧
              (j % 2 = 1 → (∀ q, j + 1 ≠ 2 ^ q) → v.result.errPos = if e0 = 0 then j + 1 else j + 2) ∧
              (v.result.errPos = j ↔ e0 = 1 ∧ (j = 1 ∨ j % 2 = 0)) ∧
              (v.result.errPos = j → v.result.corr = some cw)

/-- R248: with GROUP_OFFSET = 0 a fresh codeword decodes with e = 0, and a flip of any position j is located at j and
corrected, the payload recovered. The spec checked it for payloads up to length 10; this says it of every payload. -/
def Obligations.TextbookCodeCorrectsEverySingleFlip : Prop :=
  ∀ (s : State) (d : BitString), s.encodable d → s.params.groupRule = .textbook →
    ∃ t cw, exec .encode s = .next t ∧ t.result.out = some cw ∧
      (∀ u : State, u.params = s.params → u.hasInput cw →
        ∃ v, exec .decode u = .next v ∧ v.result.code = .ok ∧ v.result.errPos = 0 ∧ v.result.out = some d) ∧
      (∀ (u : State) (j : Nat), u.params = s.params → 1 ≤ j → j ≤ cw.length → u.hasInput (flipBit cw j) →
        ∃ v, exec .decode u = .next v ∧ v.result.code = .corrected ∧ v.result.errPos = j ∧
          v.result.out = some d ∧ v.result.corr = some cw)

/-! ### Host accesses -/

/-- R62, R63: a read has no side effect: it leaves the state as it was, but for the model's counter of free values. -/
def Obligations.ReadsHaveNoSideEffect : Prop :=
  ∀ s : State,
    (∀ r, (s.regRead r).2 = s ∨ (s.busy = true ∧ (s.regRead r).2 = { s with draws := s.draws + 1 })) ∧
    (∀ e, (s.bufRead e).2 = s ∨ (s.bufRead e).2 = { s with draws := s.draws + 1 })

/-- R62, R63: writes to read-only and reserved registers, to any buffer but IN_BUF, and beyond IN_BUF's capacity are
ignored. -/
def Obligations.ReadOnlyWritesIgnored : Prop :=
  ∀ (s : State) (v : Word),
    (∀ r, r ≠ .ctrl → r ≠ .inLen → s.regWrite r v = s) ∧
    (∀ e, (∀ k, e ≠ .elem .inBuf k) → s.bufWrite e v = s) ∧
    (∀ k, s.params.maxLen ≤ k → s.bufWrite (.elem .inBuf k) v = s)

/-- R68: while busy every host write to CTRL, IN_LEN or IN_BUF is ignored, a START too, so the operands the core reads
at completion are those of the START: no line of a host program changes them or the operation in flight. -/
def Obligations.BusyLocksOperands : Prop :=
  ∀ s : State, s.busy = true →
    (∀ v, s.regWrite .ctrl v = s) ∧ (∀ v, s.regWrite .inLen v = s) ∧ (∀ k v, s.bufWrite (.elem .inBuf k) v = s) ∧
    ∀ (line : HostLine) (t : State), runLine line s = .next t →
      t.busy = true ∧ t.done = s.done ∧ t.ctrlOp = s.ctrlOp ∧ t.inLen = s.inLen ∧ t.inBuf = s.inBuf ∧
        (∀ k, t.inputSymbol k = s.inputSymbol k) ∧ t.result = s.result

/-- R69: reads while busy. STATUS shows BUSY = 1 and DONE = 0; the result registers and buffers read a draw; CTRL,
IN_LEN, MAXLEN and IN_BUF read their stored values. That one draw serves the seven open bits of STATUS is the model's
choice (log 4). -/
def Obligations.BusyReads : Prop :=
  ∀ s : State, s.busy = true →
    (s.regRead .status).1.getLsbD 0 = true ∧ (s.regRead .status).1.getLsbD 1 = false ∧
    (∀ i, i ∈ [4, 5, 6, 8, 9, 10, 11] →
      (s.regRead .status).1.getLsbD i = (Config.freeWord s.draws).getLsbD i) ∧
    (∀ r, r ∈ [Reg.outLen, .npar, .hdist, .detect, .correct, .errPos, .edLen, .logCnt] →
      (s.regRead r).1 = Config.freeWord s.draws) ∧
    (∀ e, (∀ k, e ≠ .elem .inBuf k) → (s.bufRead e).1 = Config.freeWord s.draws) ∧
    s.regRead .ctrl = (s.ctrlOp.setWidth 32, s) ∧ s.regRead .inLen = (s.inLen, s) ∧
    s.regRead .maxLen = (BitVec.ofNat 32 s.params.maxLen, s) ∧
    (∀ k, k < s.params.maxLen → s.bufRead (.elem .inBuf k) = ((s.inputSymbol k).setWidth 32, s))

/-- The model's reading (log 8): while busy the reserved bits of STATUS read 0, as reserved bits do in every read. -/
def Obligations.BusyStatusReservedBits : Prop :=
  ∀ s : State, s.busy = true →
    ∀ i, i = 2 ∨ i = 3 ∨ i = 7 ∨ 12 ≤ i → (s.regRead .status).1.getLsbD i = false

/-- R63, R38: a write of IN_BUF[k] within capacity, while not busy, stores v[7:0]: it reads back zero-extended, every
other element of IN_BUF reads as before, and nothing but IN_BUF changes: IN_LEN, CTRL.OP, STATUS and the result state
are as they were. -/
def Obligations.InBufReadsBackWhatWasWritten : Prop :=
  ∀ (s : State) (k : Nat) (v : Word),
    s.busy = false → Memory.wf s.params.maxLen s.inBuf → k < s.params.maxLen →
    let t := s.bufWrite (.elem .inBuf k) v
    t = { s with inBuf := t.inBuf } ∧
    t.bufRead (.elem .inBuf k) = ((v.setWidth 8).setWidth 32, t) ∧
    (∀ j, j ≠ k → t.inputSymbol j = s.inputSymbol j) ∧
    (∀ j, j < s.params.maxLen → j ≠ k → (t.bufRead (.elem .inBuf j)).1 = (s.bufRead (.elem .inBuf j)).1) ∧
    Memory.wf t.params.maxLen t.inBuf

/-- R40, R280: after DONE no host write of IN_BUF or IN_LEN changes what any result register or valid buffer element
reads. That an element which is not valid, or lies beyond capacity, reads alike before and after is the model's draw
counter, which no write moves: the model's choice (log 4, log 6).
That results read so from the completion on, before any STATUS read returns DONE = 1, is the model's reading (log 22). -/
def Obligations.InputWritesLeaveResults : Prop :=
  ∀ (s : State) (k : Nat) (v w : Word), s.busy = false →
    let t := (s.bufWrite (.elem .inBuf k) v).regWrite .inLen w
    (∀ r, r ≠ .inLen → (t.regRead r).1 = (s.regRead r).1) ∧
    (∀ e, (∀ j, e ≠ .elem .inBuf j) → (t.bufRead e).1 = (s.bufRead e).1)

/-- R39 to R43, R85, R88: while not busy the valid elements of the result buffers read as the result record says: the
symbols of the strings, the parity table's four arrays, the four words of each event.
That results read so from the completion on, before any STATUS read returns DONE = 1, is the model's reading (log 22). -/
def Obligations.ResultBuffersHoldTheResult : Prop :=
  ∀ s : State, s.Inv → s.busy = false →
    (∀ k b, ((s.result.out.getD [])[k]? = some b → s.bufRead (.elem .outBuf k) = (if b then 0x31#32 else 0x30#32, s)) ∧
      ((s.result.orig.getD [])[k]? = some b → s.bufRead (.elem .origBuf k) = (if b then 0x31#32 else 0x30#32, s)) ∧
      ((s.result.corr.getD [])[k]? = some b → s.bufRead (.elem .corrBuf k) = (if b then 0x31#32 else 0x30#32, s))) ∧
    (∀ t e, s.result.ptab[t]? = some e →
      s.bufRead (.elem .ptabPos t) = (BitVec.ofNat 32 e.parityPosition, s) ∧
      s.bufRead (.elem .ptabVal t) = (if e.parityValue then 1#32 else 0#32, s) ∧
      s.bufRead (.elem .ptabCnt t) = (BitVec.ofNat 32 e.affectedPositions.length, s) ∧
      ∀ j a, e.affectedPositions[j]? = some a → s.bufRead (.aff t j) = (BitVec.ofNat 32 a, s)) ∧
    (∀ k ev, s.result.log[k]? = some ev →
      ((s.bufRead (.elem .logKind k)).1, (s.bufRead (.elem .logA k)).1, (s.bufRead (.elem .logB k)).1,
        (s.bufRead (.elem .logC k)).1) =
      match ev with
      | .len m r => (1#32, BitVec.ofNat 32 m, BitVec.ofNat 32 r, 0#32)
      | .placeholder p => (2#32, BitVec.ofNat 32 p, 0#32, 0#32)
      | .parity p v => (3#32, BitVec.ofNat 32 p, if v then 1#32 else 0#32, 0#32)
      | .check p v => (4#32, BitVec.ofNat 32 p, if v then 1#32 else 0#32, 0#32)
      | .correct e => (5#32, BitVec.ofNat 32 e, 0#32, 0#32)
      | .uncorrectable e => (6#32, BitVec.ofNat 32 e, 0#32, 0#32))

/-- R10, R30 to R37: while not busy each result register reads exactly the count or position of the result record; none
is truncated to W bits.
That results read so from the completion on, before any STATUS read returns DONE = 1, is the model's reading (log 22). -/
def Obligations.RegistersReadExactCounts : Prop :=
  ∀ s : State, s.Inv → s.busy = false →
    (s.regRead .outLen).1.toNat = lengthOf s.result.out ∧ (s.regRead .npar).1.toNat = s.result.ptab.length ∧
    (s.regRead .hdist).1.toNat = s.result.hdist ∧ (s.regRead .detect).1.toNat = s.result.detect ∧
    (s.regRead .correct).1.toNat = s.result.correct ∧ (s.regRead .errPos).1.toNat = s.result.errPos ∧
    (s.regRead .edLen).1.toNat = lengthOf s.result.orig ∧ (s.regRead .logCnt).1.toNat = s.result.log.length ∧
    (s.regRead .maxLen).1.toNat = s.params.maxLen

/-- R64: the address map: every register, buffer element and PTAB_AFF element sits at its address, and an address
outside the register space and the windows is the platform's. -/
def Obligations.AddressMap : Prop :=
  ∀ p : Params, p.wf = true →
    (∀ r, locate p (p.base + regOffset r) = some (.reg r)) ∧
    (∀ b k, k < p.capacity b → locate p (p.windows.ofBuffer b + 4 * k) = some (.elem (.elem b k))) ∧
    (∀ t j, t < p.pMax → j < p.maxLen →
      locate p (p.windows.ptabAff + 4 * (t * p.maxLen + j)) = some (.elem (.aff t j))) ∧
    (∀ a, p.holdsAddress a = false → locate p a = none)

/-- R65: a bus access is admitted, as the RegRead, RegWrite, BufRead or BufWrite of the target at its address, exactly
when it is 4 bytes wide, aligned and inside the block; the host program that makes another is refused. The value
written is the line's immediate, or the value of its host variable (R92). -/
def Obligations.BusAccessAdmission : Prop :=
  ∀ (s : State) (x addr width : Nat),
    (s.params.admitted addr width = false →
      runLine (.memRead x addr width) s = .refused (.accessNotAdmitted addr width) ∧
      ∀ v, runLine (.memWrite addr width v) s = .refused (.accessNotAdmitted addr width)) ∧
    (s.params.admitted addr width = true → width = 4 ∧ addr % 4 = 0 ∧
      ((∃ r, locate s.params addr = some (.reg r) ∧
          runLine (.memRead x addr width) s = runLine (.rd x r) s ∧
          (∀ v, runLine (.memWrite addr width v) s = runLine (.wr r v) s) ∧
          (∀ w, runLine (.memWrite addr width (.imm w)) s = .next (s.regWrite r w).hostNext) ∧
          ∀ y, runLine (.memWrite addr width (.var y)) s =
            .next (s.regWrite r (lookupVar s.host.vars y)).hostNext) ∨
        (∃ e, locate s.params addr = some (.elem e) ∧
          runLine (.memRead x addr width) s = runLine (.rb x e) s ∧
          (∀ v, runLine (.memWrite addr width v) s = runLine (.wb e v) s) ∧
          (∀ w, runLine (.memWrite addr width (.imm w)) s = .next (s.bufWrite e w).hostNext) ∧
          ∀ y, runLine (.memWrite addr width (.var y)) s =
            .next (s.bufWrite e (lookupVar s.host.vars y)).hostNext)))

/-- In every state, busy too: MAXLEN reads MAX_LEN, after reset and whatever is written (R29), and reserved offsets read
0. While not busy: IN_LEN reads back any value written, and the write changes nothing else (R28); CTRL reads back OP
alone (R25). -/
def Obligations.RegisterReadBack : Prop :=
  (∀ s : State, (s.regRead .maxLen).1 = BitVec.ofNat 32 s.params.maxLen) ∧
  (∀ (s : State) (r : Reg) (w : Word), ((s.regWrite r w).regRead .maxLen).1 = BitVec.ofNat 32 s.params.maxLen) ∧
  (∀ (p : Params) (n : Nat), ((State.resetWith p n).regRead .maxLen).1 = BitVec.ofNat 32 p.maxLen) ∧
  (∀ (s : State) (n : Fin 52), s.regRead (.reserved n) = (0, s)) ∧
  ∀ (s : State) (v : Word), s.busy = false →
    s.regWrite .inLen v = { s with inLen := v } ∧ ((s.regWrite .inLen v).regRead .inLen).1 = v ∧
    ((s.regWrite .ctrl v).regRead .ctrl).1 = v &&& 0x3#32

/-- R280: while not busy and with no reset arriving, a step leaves the result state as it is, and DONE as well unless
the step accepted a START; a host read never changes it; a START while not busy is always accepted. -/
def Obligations.ResultPersists : Prop :=
  (∀ s t : State, step s = .next t → s.resetArrives = false → s.busy = false →
    t.result = s.result ∧ (t.busy = false ∧ t.done = s.done ∨ t.busy = true ∧ t.done = false)) ∧
  (∀ (s : State) (r : Reg) (e : ElemRef), (s.regRead r).2.result = s.result ∧ (s.bufRead e).2.result = s.result) ∧
  (∀ (s : State) (v : Word), s.busy = false → v.getLsbD 4 = true → (s.regWrite .ctrl v).busy = true)

/-! ### Reset -/

/-- R310: a reset, whatever state it finds, sets every register to its reset value and every element to a draw of its
own, leaves the parameters, and abandons an operation in flight. The model's choices: the draw is keyed by the reset's
number (log 5), a symbol element shows 0 in bits 31:8 (R61; log 7), the reset leaves the input list (log 10). -/
def Obligations.ResetSetsEverything : Prop :=
  ∀ s : State, s.resetArrives = true →
    ∃ t, step s = .next t ∧ t.params = s.params ∧ t.ctrlOp = 0 ∧ t.busy = false ∧ t.done = false ∧ t.inLen = 0 ∧
      t.result = ResultState.empty .none ∧ t.resets = s.resets.tail ∧
      (∀ r, t.regRead r = (if r = .maxLen then BitVec.ofNat 32 s.params.maxLen else 0, t)) ∧
      (∀ e, elemExists t.params e = true →
        t.bufRead e = (unspecifiedElem e (Config.resetElement s.draws e), t))

/-! ### The whole machine -/

/-- The state after reset meets the invariant, whatever the legal parameters (R12, R27, R46, R47, R48). -/
def Obligations.ResetMeetsInvariant : Prop :=
  State.reset.Inv ∧ ∀ (p : Params) (n : Nat), p.wf = true → (State.resetWith p n).Inv

/-- Every step keeps the invariant: the phases of R27, the flag relations of R47, the capacities of R12, the canonical
form of IN_BUF. -/
def Obligations.StepKeepsInvariant : Prop :=
  ∀ s t : State, s.Inv → step s = .next t → t.Inv

/-- R77, R285: no step faults, and a machine whose host program is well formed always has a next state, with the same
program. -/
def Obligations.StepAlwaysGoesOn : Prop :=
  (∀ (s : State) (f : Fault), step s ≠ .fault f) ∧
  (∀ s : State, s.hostWf → ∃ t, step s = .next t ∧ t.hostWf ∧ t.host.program = s.host.program ∧
    t.params = s.params)

/-- R285, R321, R68: an operation in flight, a reserved OP too, completes within its drawn latency (log 3), whatever the
host does meanwhile, with the result of the completion on the operands as they stood at the START, unless a reset comes
first; for ENCODE and DECODE that completion is the operation. -/
def Obligations.EveryStartCompletes : Prop :=
  ∀ s : State, s.busy = true → s.resets = [] → s.hostWf →
    ∃ (k : Nat) (t u : State), k ≤ s.latency ∧ complete s = .next t ∧
      (∀ i, s.ctrlOp = opOf i → exec i s = .next t) ∧ Sys2Proof.core.run (k + 1) s = .next u ∧
      u.busy = false ∧ u.done = true ∧ u.result = t.result ∧ u.ctrlOp = s.ctrlOp ∧ u.inLen = s.inLen ∧
      u.inBuf = s.inBuf

/-- R288: a step of one block of a platform changes no other block, and does to its own exactly what step does. -/
def Obligations.BlocksShareNothing : Prop :=
  ∀ (p q : Platform) (k : Nat), p.stepAt k = some q →
    q.length = p.length ∧ (∀ j, j ≠ k → q[j]? = p[j]?) ∧
    ∃ s s', p[k]? = some s ∧ step s = .next s' ∧ q[k]? = some s'
end

