-- ==== Sys2Proof/Laws/Memory.lean ====
section
/-! SUPPORT. Laws of IN_BUF: reads after writes, and that every operation keeps the canonical form. -/

namespace Sys2Proof.Machine

theorem Memory.read_write_same (m : Memory) (k : Nat) (v : Byte) (h : k ∈ m.map Prod.fst) :
    (m.write k v).read k = some v := by
  induction m with
  | nil => simp at h
  | cons c rest ih =>
    obtain ⟨k', b⟩ := c
    by_cases hk : k' = k
    · subst hk; simp [Memory.write, Memory.read]
    · have : k ∈ rest.map Prod.fst := by simpa [Ne.symm hk] using h
      simpa [Memory.write, Memory.read, hk] using ih this

theorem Memory.read_write_other (m : Memory) (k j : Nat) (v : Byte) (h : j ≠ k) :
    (m.write k v).read j = m.read j := by
  induction m with
  | nil => rfl
  | cons c rest ih =>
    obtain ⟨k', b⟩ := c
    by_cases hk : k' = k
    · subst hk
      simpa [Memory.write, Memory.read, Ne.symm h] using ih
    · by_cases hj : k' = j
      · subst hj; simp [Memory.write, Memory.read, hk]
      · simpa [Memory.write, Memory.read, hk, hj] using ih

@[simp] theorem Memory.write_keys (m : Memory) (k : Nat) (v : Byte) :
    (m.write k v).map Prod.fst = m.map Prod.fst := by
  simp only [Memory.write, List.map_map]
  apply List.map_congr_left
  intro c _
  by_cases h : c.1 = k <;> simp [h]

theorem Memory.write_wf {n : Nat} {m : Memory} (k : Nat) (v : Byte) (h : Memory.wf n m) :
    Memory.wf n (m.write k v) := by
  simpa [Memory.wf] using h

@[simp] theorem Memory.fresh_wf (maxLen n : Nat) : Memory.wf maxLen (Memory.fresh maxLen n) := by
  simp [Memory.wf, Memory.fresh, Function.comp_def]

theorem Memory.fresh_read (maxLen n k : Nat) :
    ((Memory.fresh maxLen n).read k).getD (resetSymbol n k) = resetSymbol n k := by
  have : ∀ l : List Nat, (Memory.read (l.map fun k => (k, resetSymbol n k)) k).getD (resetSymbol n k)
      = resetSymbol n k := by
    intro l
    induction l with
    | nil => rfl
    | cons a l ih =>
      by_cases h : a = k
      · subst h; simp [Memory.read]
      · simpa [Memory.read, h] using ih
  exact this _

/-- Every write of an input element keeps the canonical form. -/
theorem State.bufWrite_wf {s : State} (e : ElemRef) (v : Word) (h : Memory.wf s.params.maxLen s.inBuf) :
    Memory.wf (s.bufWrite e v).params.maxLen (s.bufWrite e v).inBuf := by
  unfold State.bufWrite
  split
  · split
    · exact h
    · exact Memory.write_wf _ _ h
  · exact h

@[simp] theorem State.resetWith_inputSymbol (p : Params) (n k : Nat) :
    (State.resetWith p n).inputSymbol k = resetSymbol n k :=
  Memory.fresh_read p.maxLen n k

end Sys2Proof.Machine
end

