-- ==== Sys2Proof/Laws/State.lean ====
section
/-! SUPPORT. One lemma per field of State and update of it, each true by rfl, so that no proof unfolds a record
update. -/

namespace Sys2Proof.Machine

/-! ### State.finish -/

@[simp] theorem State.finish_params (s : State) (r : ResultState) :
    (s.finish r).params = s.params := rfl
@[simp] theorem State.finish_ctrlOp (s : State) (r : ResultState) :
    (s.finish r).ctrlOp = s.ctrlOp := rfl
@[simp] theorem State.finish_busy (s : State) (r : ResultState) :
    (s.finish r).busy = false := rfl
@[simp] theorem State.finish_done (s : State) (r : ResultState) :
    (s.finish r).done = true := rfl
@[simp] theorem State.finish_inLen (s : State) (r : ResultState) :
    (s.finish r).inLen = s.inLen := rfl
@[simp] theorem State.finish_inBuf (s : State) (r : ResultState) :
    (s.finish r).inBuf = s.inBuf := rfl
@[simp] theorem State.finish_result (s : State) (r : ResultState) :
    (s.finish r).result = r := rfl
@[simp] theorem State.finish_latency (s : State) (r : ResultState) :
    (s.finish r).latency = 0 := rfl
@[simp] theorem State.finish_draws (s : State) (r : ResultState) :
    (s.finish r).draws = s.draws := rfl
@[simp] theorem State.finish_resetDraw (s : State) (r : ResultState) :
    (s.finish r).resetDraw = s.resetDraw := rfl
@[simp] theorem State.finish_resets (s : State) (r : ResultState) :
    (s.finish r).resets = s.resets := rfl
@[simp] theorem State.finish_host (s : State) (r : ResultState) :
    (s.finish r).host = s.host := rfl

/-! ### State.takeException -/

@[simp] theorem State.takeException_params (s : State) (c : ResultCode) :
    (s.takeException c).params = s.params := rfl
@[simp] theorem State.takeException_ctrlOp (s : State) (c : ResultCode) :
    (s.takeException c).ctrlOp = s.ctrlOp := rfl
@[simp] theorem State.takeException_busy (s : State) (c : ResultCode) :
    (s.takeException c).busy = false := rfl
@[simp] theorem State.takeException_done (s : State) (c : ResultCode) :
    (s.takeException c).done = true := rfl
@[simp] theorem State.takeException_inLen (s : State) (c : ResultCode) :
    (s.takeException c).inLen = s.inLen := rfl
@[simp] theorem State.takeException_inBuf (s : State) (c : ResultCode) :
    (s.takeException c).inBuf = s.inBuf := rfl
@[simp] theorem State.takeException_result (s : State) (c : ResultCode) :
    (s.takeException c).result = ResultState.empty c := rfl
@[simp] theorem State.takeException_latency (s : State) (c : ResultCode) :
    (s.takeException c).latency = 0 := rfl
@[simp] theorem State.takeException_draws (s : State) (c : ResultCode) :
    (s.takeException c).draws = s.draws := rfl
@[simp] theorem State.takeException_resetDraw (s : State) (c : ResultCode) :
    (s.takeException c).resetDraw = s.resetDraw := rfl
@[simp] theorem State.takeException_resets (s : State) (c : ResultCode) :
    (s.takeException c).resets = s.resets := rfl
@[simp] theorem State.takeException_host (s : State) (c : ResultCode) :
    (s.takeException c).host = s.host := rfl

/-! ### State.drawWord -/

@[simp] theorem State.drawWord_params (s : State) :
    s.drawWord.2.params = s.params := rfl
@[simp] theorem State.drawWord_ctrlOp (s : State) :
    s.drawWord.2.ctrlOp = s.ctrlOp := rfl
@[simp] theorem State.drawWord_busy (s : State) :
    s.drawWord.2.busy = s.busy := rfl
@[simp] theorem State.drawWord_done (s : State) :
    s.drawWord.2.done = s.done := rfl
@[simp] theorem State.drawWord_inLen (s : State) :
    s.drawWord.2.inLen = s.inLen := rfl
@[simp] theorem State.drawWord_inBuf (s : State) :
    s.drawWord.2.inBuf = s.inBuf := rfl
@[simp] theorem State.drawWord_result (s : State) :
    s.drawWord.2.result = s.result := rfl
@[simp] theorem State.drawWord_latency (s : State) :
    s.drawWord.2.latency = s.latency := rfl
@[simp] theorem State.drawWord_draws (s : State) :
    s.drawWord.2.draws = s.draws + 1 := rfl
@[simp] theorem State.drawWord_resetDraw (s : State) :
    s.drawWord.2.resetDraw = s.resetDraw := rfl
@[simp] theorem State.drawWord_resets (s : State) :
    s.drawWord.2.resets = s.resets := rfl
@[simp] theorem State.drawWord_host (s : State) :
    s.drawWord.2.host = s.host := rfl

/-! ### State.tick -/

@[simp] theorem State.tick_params (s : State) :
    s.tick.params = s.params := rfl
@[simp] theorem State.tick_ctrlOp (s : State) :
    s.tick.ctrlOp = s.ctrlOp := rfl
@[simp] theorem State.tick_busy (s : State) :
    s.tick.busy = s.busy := rfl
@[simp] theorem State.tick_done (s : State) :
    s.tick.done = s.done := rfl
@[simp] theorem State.tick_inLen (s : State) :
    s.tick.inLen = s.inLen := rfl
@[simp] theorem State.tick_inBuf (s : State) :
    s.tick.inBuf = s.inBuf := rfl
@[simp] theorem State.tick_result (s : State) :
    s.tick.result = s.result := rfl
@[simp] theorem State.tick_latency (s : State) :
    s.tick.latency = s.latency := rfl
@[simp] theorem State.tick_draws (s : State) :
    s.tick.draws = s.draws := rfl
@[simp] theorem State.tick_resetDraw (s : State) :
    s.tick.resetDraw = s.resetDraw := rfl
@[simp] theorem State.tick_resets (s : State) :
    s.tick.resets = countdown s.resets := rfl
@[simp] theorem State.tick_host (s : State) :
    s.tick.host = s.host := rfl

/-! ### State.spendLatency -/

@[simp] theorem State.spendLatency_params (s : State) :
    s.spendLatency.params = s.params := rfl
@[simp] theorem State.spendLatency_ctrlOp (s : State) :
    s.spendLatency.ctrlOp = s.ctrlOp := rfl
@[simp] theorem State.spendLatency_busy (s : State) :
    s.spendLatency.busy = s.busy := rfl
@[simp] theorem State.spendLatency_done (s : State) :
    s.spendLatency.done = s.done := rfl
@[simp] theorem State.spendLatency_inLen (s : State) :
    s.spendLatency.inLen = s.inLen := rfl
@[simp] theorem State.spendLatency_inBuf (s : State) :
    s.spendLatency.inBuf = s.inBuf := rfl
@[simp] theorem State.spendLatency_result (s : State) :
    s.spendLatency.result = s.result := rfl
@[simp] theorem State.spendLatency_latency (s : State) :
    s.spendLatency.latency = s.latency - 1 := rfl
@[simp] theorem State.spendLatency_draws (s : State) :
    s.spendLatency.draws = s.draws := rfl
@[simp] theorem State.spendLatency_resetDraw (s : State) :
    s.spendLatency.resetDraw = s.resetDraw := rfl
@[simp] theorem State.spendLatency_resets (s : State) :
    s.spendLatency.resets = s.resets := rfl
@[simp] theorem State.spendLatency_host (s : State) :
    s.spendLatency.host = s.host := rfl

/-! ### State.hostGoto -/

@[simp] theorem State.hostGoto_params (s : State) (n : Nat) :
    (s.hostGoto n).params = s.params := rfl
@[simp] theorem State.hostGoto_ctrlOp (s : State) (n : Nat) :
    (s.hostGoto n).ctrlOp = s.ctrlOp := rfl
@[simp] theorem State.hostGoto_busy (s : State) (n : Nat) :
    (s.hostGoto n).busy = s.busy := rfl
@[simp] theorem State.hostGoto_done (s : State) (n : Nat) :
    (s.hostGoto n).done = s.done := rfl
@[simp] theorem State.hostGoto_inLen (s : State) (n : Nat) :
    (s.hostGoto n).inLen = s.inLen := rfl
@[simp] theorem State.hostGoto_inBuf (s : State) (n : Nat) :
    (s.hostGoto n).inBuf = s.inBuf := rfl
@[simp] theorem State.hostGoto_result (s : State) (n : Nat) :
    (s.hostGoto n).result = s.result := rfl
@[simp] theorem State.hostGoto_latency (s : State) (n : Nat) :
    (s.hostGoto n).latency = s.latency := rfl
@[simp] theorem State.hostGoto_draws (s : State) (n : Nat) :
    (s.hostGoto n).draws = s.draws := rfl
@[simp] theorem State.hostGoto_resetDraw (s : State) (n : Nat) :
    (s.hostGoto n).resetDraw = s.resetDraw := rfl
@[simp] theorem State.hostGoto_resets (s : State) (n : Nat) :
    (s.hostGoto n).resets = s.resets := rfl
@[simp] theorem State.hostGoto_host (s : State) (n : Nat) :
    (s.hostGoto n).host = { s.host with line := n } := rfl

/-! ### State.hostNext -/

@[simp] theorem State.hostNext_params (s : State) :
    s.hostNext.params = s.params := rfl
@[simp] theorem State.hostNext_ctrlOp (s : State) :
    s.hostNext.ctrlOp = s.ctrlOp := rfl
@[simp] theorem State.hostNext_busy (s : State) :
    s.hostNext.busy = s.busy := rfl
@[simp] theorem State.hostNext_done (s : State) :
    s.hostNext.done = s.done := rfl
@[simp] theorem State.hostNext_inLen (s : State) :
    s.hostNext.inLen = s.inLen := rfl
@[simp] theorem State.hostNext_inBuf (s : State) :
    s.hostNext.inBuf = s.inBuf := rfl
@[simp] theorem State.hostNext_result (s : State) :
    s.hostNext.result = s.result := rfl
@[simp] theorem State.hostNext_latency (s : State) :
    s.hostNext.latency = s.latency := rfl
@[simp] theorem State.hostNext_draws (s : State) :
    s.hostNext.draws = s.draws := rfl
@[simp] theorem State.hostNext_resetDraw (s : State) :
    s.hostNext.resetDraw = s.resetDraw := rfl
@[simp] theorem State.hostNext_resets (s : State) :
    s.hostNext.resets = s.resets := rfl
@[simp] theorem State.hostNext_host (s : State) :
    s.hostNext.host = { s.host with line := s.host.line + 1 } := rfl

/-! ### State.hostAssign -/

@[simp] theorem State.hostAssign_params (s : State) (x : Nat) (v : Word) :
    (s.hostAssign x v).params = s.params := rfl
@[simp] theorem State.hostAssign_ctrlOp (s : State) (x : Nat) (v : Word) :
    (s.hostAssign x v).ctrlOp = s.ctrlOp := rfl
@[simp] theorem State.hostAssign_busy (s : State) (x : Nat) (v : Word) :
    (s.hostAssign x v).busy = s.busy := rfl
@[simp] theorem State.hostAssign_done (s : State) (x : Nat) (v : Word) :
    (s.hostAssign x v).done = s.done := rfl
@[simp] theorem State.hostAssign_inLen (s : State) (x : Nat) (v : Word) :
    (s.hostAssign x v).inLen = s.inLen := rfl
@[simp] theorem State.hostAssign_inBuf (s : State) (x : Nat) (v : Word) :
    (s.hostAssign x v).inBuf = s.inBuf := rfl
@[simp] theorem State.hostAssign_result (s : State) (x : Nat) (v : Word) :
    (s.hostAssign x v).result = s.result := rfl
@[simp] theorem State.hostAssign_latency (s : State) (x : Nat) (v : Word) :
    (s.hostAssign x v).latency = s.latency := rfl
@[simp] theorem State.hostAssign_draws (s : State) (x : Nat) (v : Word) :
    (s.hostAssign x v).draws = s.draws := rfl
@[simp] theorem State.hostAssign_resetDraw (s : State) (x : Nat) (v : Word) :
    (s.hostAssign x v).resetDraw = s.resetDraw := rfl
@[simp] theorem State.hostAssign_resets (s : State) (x : Nat) (v : Word) :
    (s.hostAssign x v).resets = s.resets := rfl
@[simp] theorem State.hostAssign_host (s : State) (x : Nat) (v : Word) :
    (s.hostAssign x v).host = { s.host with vars := assignVar s.host.vars x v, line := s.host.line + 1 } := rfl

end Sys2Proof.Machine
end

