-- ==== Sys2Proof/Laws/Access.lean ====
section
/-! SUPPORT. Laws of the host's accesses: what each read and each write can do, said once (20_memory.md R62, R63, R68,
R69). -/

namespace Sys2Proof.Machine

/-! ### Command words -/

/-- A START word carries its OP field, whatever it is (30_encoding.md R81). -/
theorem writeCtrl_eq (s : State) (v : Word) :
    s.writeCtrl v =
      if v.getLsbD 4 then
        { s with
          ctrlOp := v.extractLsb' 0 2, busy := true, done := false
          latency := Config.latency s.draws, draws := s.draws + 1 }
      else { s with ctrlOp := v.extractLsb' 0 2 } := by
  have hop : ∀ op i, instrOfOp op = some i → opOf i = op := by decide
  unfold State.writeCtrl classify startField opField
  cases hv : v.getLsbD 4 with
  | false => simp
  | true =>
    cases hi : instrOfOp (v.extractLsb' 0 2) with
    | none => simp
    | some i => simp [hop _ _ hi]

theorem and_13_nat (x : Nat) : x &&& 0x13 = (x.testBit 4).toNat * 16 + x % 4 := by
  have e1 : x &&& 0x13 = (x % 2^5) &&& 0x13 := by
    apply Nat.eq_of_testBit_eq
    intro i
    rw [Nat.testBit_and, Nat.testBit_and, Nat.testBit_mod_two_pow]
    by_cases hi : i < 5
    · simp [hi]
    · have : (19:Nat).testBit i = false :=
        Nat.testBit_lt_two_pow (Nat.lt_of_lt_of_le (by norm_num : 19 < 2^5)
          (Nat.pow_le_pow_right (by omega) (by omega)))
      simp [this]
  have e2 : x.testBit 4 = (x % 2^5).testBit 4 := by rw [Nat.testBit_mod_two_pow]; simp
  have e3 : x % 4 = (x % 2^5) % 4 := by omega
  rw [e1, e2, e3]
  have : x % 2^5 < 32 := Nat.mod_lt _ (by norm_num)
  generalize x % 2^5 = y at *
  interval_cases y <;> decide

/-- v & 0x13 is START and OP (30_encoding.md R87). -/
theorem and_13 (v : Word) :
    v &&& 0x13#32 = ((v.getLsbD 4).toNat * 16 + (v.extractLsb' 0 2).toNat : Nat) := by
  apply BitVec.eq_of_toNat_eq
  have h : (v &&& 0x13#32).toNat = v.toNat &&& 0x13 := by simp
  have := (v.extractLsb' 0 2).isLt
  have : (v.getLsbD 4).toNat ≤ 1 := Bool.toNat_le _
  rw [h, BitVec.natCast_eq_ofNat, BitVec.toNat_ofNat, Nat.mod_eq_of_lt (by omega), and_13_nat]
  simp [BitVec.getLsbD]

/-! ### Reads -/

/-- A draw is the only thing a register read can leave behind (20_memory.md R62). -/
theorem regRead_state (s : State) (r : Reg) :
    (s.regRead r).2 = s ∨ (s.busy = true ∧ (s.regRead r).2 = { s with draws := s.draws + 1 }) := by
  unfold State.regRead
  split
  · rename_i h
    cases r <;> first | exact .inl rfl | exact .inr ⟨h, rfl⟩
  · exact .inl rfl

/-- While not busy a register reads what it holds. -/
theorem regRead_idle {s : State} (h : s.busy = false) (r : Reg) : s.regRead r = (s.regValue r, s) := by
  simp [State.regRead, h]

theorem readResultElem_state (s : State) (e : ElemRef) :
    (s.readResultElem e).2 = s ∨ (s.readResultElem e).2 = { s with draws := s.draws + 1 } := by
  unfold State.readResultElem
  split
  · exact .inl rfl
  · split
    · exact .inl rfl
    · exact .inr rfl

@[simp] theorem readElem_inBuf (s : State) (k : Nat) :
    s.readElem (.elem .inBuf k) = ((s.inputSymbol k).setWidth 32, s) := rfl

theorem readElem_result {s : State} {e : ElemRef} (h : ∀ k, e ≠ .elem .inBuf k) :
    s.readElem e = if s.busy then s.drawWord else s.readResultElem e := by
  unfold State.readElem
  split
  · exact absurd rfl (h _)
  · rfl

/-- A draw is the only thing a buffer read can leave behind (20_memory.md R63). -/
theorem bufRead_state (s : State) (e : ElemRef) :
    (s.bufRead e).2 = s ∨ (s.bufRead e).2 = { s with draws := s.draws + 1 } := by
  unfold State.bufRead
  split
  · by_cases h : ∃ k, e = .elem .inBuf k
    · obtain ⟨k, rfl⟩ := h
      exact .inl rfl
    · rw [readElem_result fun k hk => h ⟨k, hk⟩]
      split
      · exact .inr rfl
      · exact readResultElem_state s e
  · exact .inr rfl

/-! ### Writes -/

/-- While busy no register write does anything (20_memory.md R68). -/
@[simp] theorem regWrite_busy {s : State} (h : s.busy = true) (r : Reg) (v : Word) : s.regWrite r v = s := by
  simp [State.regWrite, h]

/-- While busy no buffer write does anything (20_memory.md R68). -/
@[simp] theorem bufWrite_busy {s : State} (h : s.busy = true) (e : ElemRef) (v : Word) : s.bufWrite e v = s := by
  unfold State.bufWrite
  split <;> simp [h]

/-- Everything a register write can do (20_memory.md R62). -/
theorem regWrite_cases (s : State) (r : Reg) (v : Word) :
    s.regWrite r v = s ∨
    (s.busy = false ∧ r = .inLen ∧ s.regWrite r v = { s with inLen := v }) ∨
    (s.busy = false ∧ r = .ctrl ∧ s.regWrite r v = { s with ctrlOp := v.extractLsb' 0 2 }) ∨
    (s.busy = false ∧ r = .ctrl ∧ s.regWrite r v =
      { s with
        ctrlOp := v.extractLsb' 0 2, busy := true, done := false
        latency := Config.latency s.draws, draws := s.draws + 1 }) := by
  cases hb : s.busy with
  | true => exact .inl (regWrite_busy hb r v)
  | false =>
    cases r <;> simp only [State.regWrite, hb, Bool.false_eq_true, ↓reduceIte, writeCtrl_eq]
    case ctrl => cases v.getLsbD 4 <;> simp
    all_goals simp

/-- Everything a buffer write can do (20_memory.md R63). -/
theorem bufWrite_cases (s : State) (e : ElemRef) (v : Word) :
    s.bufWrite e v = s ∨
    ∃ k, e = .elem .inBuf k ∧ s.busy = false ∧ k < s.params.maxLen ∧
      s.bufWrite e v = { s with inBuf := s.inBuf.write k (v.setWidth 8) } := by
  unfold State.bufWrite
  split
  · rename_i k
    split
    · exact .inl rfl
    · rename_i h
      simp only [Bool.or_eq_true, Bool.not_eq_true', not_or, Bool.not_eq_true, Bool.not_eq_false] at h
      exact .inr ⟨k, rfl, h.1, of_decide_eq_true h.2, rfl⟩
  · exact .inl rfl

/-! ### Host variables -/

/-- A field of a word is what EXT reads, and the state stays as it is (00_scope.md R15). -/
theorem extract_field {s : State} {hi lo : Nat} (h1 : lo ≤ hi) (h2 : hi < 32) (y : Nat) :
    s.extract y hi lo = (bitField (lookupVar s.host.vars y) hi lo, s) := by
  simp [State.extract, h1, h2]

/-- Bits that are no field of a word give a draw (log 21). -/
theorem extract_draw {s : State} {hi lo : Nat} (h : ¬(lo ≤ hi ∧ hi < 32)) (y : Nat) :
    s.extract y hi lo = s.drawWord := by
  unfold State.extract
  rw [if_neg (by simpa using h)]

@[simp] theorem lookupVar_assignVar_same (vs : List (Nat × Word)) (x : Nat) (v : Word) :
    lookupVar (assignVar vs x v) x = v := by
  induction vs with
  | nil => simp [assignVar, lookupVar]
  | cons a vs ih =>
    obtain ⟨y, w⟩ := a
    unfold assignVar
    split
    · simp [lookupVar]
    · split
      · simp [lookupVar]
      · rename_i h1 h2
        simp [lookupVar, Ne.symm h2, ih]

/-- An assignment leaves every other variable as it was. -/
theorem lookupVar_assignVar_of_ne {x z : Nat} (h : z ≠ x) (vs : List (Nat × Word)) (v : Word) :
    lookupVar (assignVar vs x v) z = lookupVar vs z := by
  induction vs with
  | nil => simp [assignVar, lookupVar, Ne.symm h]
  | cons a vs ih =>
    obtain ⟨y, w⟩ := a
    unfold assignVar
    split
    · simp [lookupVar, Ne.symm h]
    · split
      · rename_i hy
        simp [lookupVar, Ne.symm h, ← hy]
      · simp [lookupVar, ih]

/-- Everything an assignment does (30_encoding.md R92). -/
theorem hostAssign_assigns (s : State) (x : Nat) (v : Word) : s.assigns (s.hostAssign x v) x v :=
  ⟨rfl, lookupVar_assignVar_same _ _ _, fun _ h => lookupVar_assignVar_of_ne h _ _⟩

end Sys2Proof.Machine
end

