-- ==== Sys2Proof/Laws/Classifier.lean ====
section
/-! SUPPORT. Laws of the position classifier (40_classifier.md). -/

namespace Sys2Proof.Machine

/-- 40_classifier.md R110. -/
theorem isParityPosition_iff {i : Nat} (h : 1 ≤ i) : isParityPosition i = true ↔ ∃ k, i = 2 ^ k := by
  simp only [isParityPosition, beq_iff_eq]
  exact Nat.and_sub_one_eq_zero_iff_isPowerOfTwo (by omega)

@[simp] theorem isParityPosition_two_pow (k : Nat) : isParityPosition (2 ^ k) = true :=
  (isParityPosition_iff Nat.one_le_two_pow).2 ⟨k, rfl⟩

theorem flog2_eq_iff {m k : Nat} (h : 1 ≤ m) : flog2 m = k ↔ 2 ^ k ≤ m ∧ m < 2 ^ (k + 1) :=
  Nat.log2_eq_iff (by omega)

theorem two_pow_flog2_le {m : Nat} (h : 1 ≤ m) : 2 ^ flog2 m ≤ m := ((flog2_eq_iff h).1 rfl).1

theorem lt_two_pow_flog2 {m : Nat} (h : 1 ≤ m) : m < 2 ^ (flog2 m + 1) := ((flog2_eq_iff h).1 rfl).2

/-- The checks' range: 2^i <= L exactly for i < flog2(L) + 1 (44_decode.md R221). -/
theorem lt_flog2_succ_iff {m i : Nat} (h : 1 ≤ m) : i < flog2 m + 1 ↔ 2 ^ i ≤ m := by
  rw [Nat.lt_succ_iff]
  exact Nat.le_log2 (by omega)

theorem flog2_mono {m n : Nat} (h1 : 1 ≤ m) (h : m ≤ n) : flog2 m ≤ flog2 n := by
  have := (lt_flog2_succ_iff (m := n) (i := flog2 m) (by omega)).2 (Nat.le_trans (two_pow_flog2_le h1) h)
  omega

/-! ### requiredParityBits -/

theorem requiredParityBitsFrom_spec (m fuel r : Nat) :
    r ≤ requiredParityBitsFrom m fuel r ∧
    (∀ q, r ≤ q → q < requiredParityBitsFrom m fuel r → 2 ^ q < m + q + 1) ∧
    (m + requiredParityBitsFrom m fuel r + 1 ≤ 2 ^ requiredParityBitsFrom m fuel r ∨
      requiredParityBitsFrom m fuel r = r + fuel) := by
  induction fuel generalizing r with
  | zero => exact ⟨Nat.le_refl _, fun q h1 h2 => by simp only [requiredParityBitsFrom] at h2; omega, .inr rfl⟩
  | succ fuel ih =>
    simp only [requiredParityBitsFrom]
    split
    · rename_i hlt
      obtain ⟨h1, h2, h3⟩ := ih (r + 1)
      refine ⟨by omega, fun q hq hq' => ?_, h3.imp id (by omega)⟩
      by_cases h : q = r
      · subst h; exact hlt
      · exact h2 q (by omega) hq'
    · exact ⟨Nat.le_refl _, fun q h1 h2 => by omega, .inl (by omega)⟩

/-- The loop's end (40_classifier.md R115). -/
theorem two_pow_bound {m : Nat} (h : 1 ≤ m) : m + (flog2 m + 2) + 1 ≤ 2 ^ (flog2 m + 2) := by
  have h1 := lt_two_pow_flog2 h
  have h2 : flog2 m + 1 < 2 ^ (flog2 m + 1) := Nat.lt_two_pow_self
  have h3 : 2 ^ (flog2 m + 2) = 2 * 2 ^ (flog2 m + 1) := by rw [Nat.pow_succ]; omega
  omega

/-- 40_classifier.md R113: the smallest r >= 1 with 2^r >= m + r + 1. -/
theorem requiredParityBits_spec {m : Nat} (h : 1 ≤ m) :
    1 ≤ requiredParityBits m ∧ m + requiredParityBits m + 1 ≤ 2 ^ requiredParityBits m ∧
    ∀ q, 1 ≤ q → q < requiredParityBits m → 2 ^ q < m + q + 1 := by
  obtain ⟨h1, h2, h3⟩ := requiredParityBitsFrom_spec m (flog2 m + 1) 1
  refine ⟨h1, ?_, h2⟩
  rcases h3 with h3 | h3
  · exact h3
  · have := two_pow_bound h
    have he : requiredParityBits m = flog2 m + 2 := by unfold requiredParityBits; omega
    rw [he]; exact this

theorem two_le_requiredParityBits {m : Nat} (h : 1 ≤ m) : 2 ≤ requiredParityBits m := by
  obtain ⟨h1, h2, -⟩ := requiredParityBits_spec h
  by_contra hn
  have : requiredParityBits m = 1 := by omega
  rw [this] at h2
  omega

/-- 40_classifier.md R117: the codeword length lies between 2^(r-1) and 2^r. -/
theorem codeword_length_bounds {m : Nat} (h : 1 ≤ m) :
    2 ^ (requiredParityBits m - 1) ≤ m + requiredParityBits m ∧
    m + requiredParityBits m < 2 ^ requiredParityBits m := by
  obtain ⟨-, h2, h3⟩ := requiredParityBits_spec h
  have hr := two_le_requiredParityBits h
  have := h3 (requiredParityBits m - 1) (by omega) (by omega)
  omega

theorem flog2_codeword_length {m : Nat} (h : 1 ≤ m) :
    flog2 (m + requiredParityBits m) = requiredParityBits m - 1 := by
  have hr := two_le_requiredParityBits h
  obtain ⟨h1, h2⟩ := codeword_length_bounds h
  refine (flog2_eq_iff (by omega)).2 ⟨h1, ?_⟩
  rwa [Nat.sub_add_cancel (by omega)]

/-! ### Parity and data positions of 1..N -/

/-- 40_classifier.md R117: the parity positions in 1..N are the powers of two up to N. -/
theorem filter_isParityPosition {N : Nat} (h : 1 ≤ N) :
    (List.range' 1 N).filter isParityPosition = parityPositions (flog2 N + 1) := by
  induction N with
  | zero => omega
  | succ N ih =>
    by_cases hN : N = 0
    · subst hN; decide
    have ih := ih (by omega)
    rw [List.range'_concat, List.filter_append, ih]
    have e1 : 1 + 1 * N = N + 1 := by omega
    rw [e1]
    by_cases hp : isParityPosition (N + 1) = true
    · obtain ⟨k, hk⟩ := (isParityPosition_iff (by omega)).1 hp
      have hk0 : k ≠ 0 := by rintro rfl; simp at hk; omega
      have e2 : flog2 (N + 1) = k := by
        rw [hk]; exact (flog2_eq_iff Nat.one_le_two_pow).2 ⟨Nat.le_refl _, Nat.pow_lt_pow_right (by omega) (by omega)⟩
      have e3 : flog2 N = k - 1 := by
        refine (flog2_eq_iff (by omega)).2 ⟨?_, ?_⟩
        · have : 2 ^ (k - 1) < 2 ^ k := Nat.pow_lt_pow_right (by omega) (by omega)
          omega
        · rw [Nat.sub_add_cancel (by omega)]; omega
      rw [e2, e3, Nat.sub_add_cancel (by omega)]
      simp [parityPositions, List.range_succ, hk]
    · have e2 : flog2 (N + 1) = flog2 N := by
        refine (flog2_eq_iff (by omega)).2 ⟨?_, ?_⟩
        · have := two_pow_flog2_le (m := N) (by omega); omega
        · have h1 := lt_two_pow_flog2 (m := N) (by omega)
          rcases Nat.lt_or_ge (N + 1) (2 ^ (flog2 N + 1)) with h2 | h2
          · exact h2
          · exfalso
            exact hp ((isParityPosition_iff (by omega)).2 ⟨flog2 N + 1, by omega⟩)
      rw [e2]
      simp [hp]

theorem dataPositions_length {N : Nat} (h : 1 ≤ N) : (dataPositions N).length = N - flog2 N - 1 := by
  have h1 := congrArg List.length (filter_isParityPosition h)
  have h2 := List.length_eq_length_filter_add (l := List.range' 1 N) isParityPosition
  simp only [parityPositions, List.length_map, List.length_range, List.length_range'] at h1 h2
  unfold dataPositions
  omega

theorem dataPositions_codeword_length {m : Nat} (h : 1 ≤ m) :
    (dataPositions (m + requiredParityBits m)).length = m := by
  have hr := two_le_requiredParityBits h
  rw [dataPositions_length (by omega), flog2_codeword_length h]
  omega

theorem mem_dataPositions {n j : Nat} : j ∈ dataPositions n ↔ 1 ≤ j ∧ j ≤ n ∧ isParityPosition j = false := by
  simp only [dataPositions, List.mem_filter, List.mem_range'_1, Bool.not_eq_true']
  exact ⟨fun h => ⟨h.1.1, by omega, h.2⟩, fun h => ⟨⟨h.1, by omega⟩, h.2.2⟩⟩

theorem dataPositions_nodup (n : Nat) : (dataPositions n).Nodup := List.Nodup.filter _ (List.nodup_range')

theorem mem_parityPositions {r j : Nat} : j ∈ parityPositions r ↔ ∃ i, i < r ∧ 2 ^ i = j := by
  simp [parityPositions]

end Sys2Proof.Machine
end

