-- ==== Sys2Proof/Laws/Operands.lean ====
section
/-! SUPPORT. Laws of symbols, bit strings and the input checks. -/

namespace Sys2Proof.Machine

@[simp] theorem bitOfSymbol_symbolOfBit (b : Bit) : bitOfSymbol (symbolOfBit b) = some b := by
  cases b <;> decide

theorem bitOfSymbol_eq_some {x : Byte} {b : Bit} (h : bitOfSymbol x = some b) : x = symbolOfBit b := by
  unfold bitOfSymbol at h
  split at h
  · cases h; assumption
  · split at h
    · cases h; assumption
    · cases h

theorem bitOfSymbol_eq_none {x : Byte} : bitOfSymbol x = none ↔ ¬(x = 0x30#8 ∨ x = 0x31#8) := by
  unfold bitOfSymbol
  split
  · simp [*]
  · split <;> simp [*]

theorem bitsOfSymbols_map (d : BitString) : bitsOfSymbols (d.map symbolOfBit) = some d := by
  induction d with
  | nil => rfl
  | cons b d ih => simp [bitsOfSymbols, ih]

theorem bitsOfSymbols_eq_some {l : List Byte} {d : BitString} (h : bitsOfSymbols l = some d) :
    l = d.map symbolOfBit := by
  induction l generalizing d with
  | nil => cases h; rfl
  | cons x l ih =>
    simp only [bitsOfSymbols] at h
    split at h
    · rename_i b bs hb hbs
      cases h
      simp [ih hbs, bitOfSymbol_eq_some hb]
    · cases h

theorem bitsOfSymbols_isSome {l : List Byte} :
    (bitsOfSymbols l).isSome = true ↔ ∀ x ∈ l, x = 0x30#8 ∨ x = 0x31#8 := by
  induction l with
  | nil => simp [bitsOfSymbols]
  | cons x l ih =>
    cases hx : bitOfSymbol x with
    | none =>
      have := bitOfSymbol_eq_none.1 hx
      simp only [bitsOfSymbols, hx]
      simp only [List.mem_cons, forall_eq_or_imp]
      simp [this]
    | some b =>
      have hb : x = 0x30#8 ∨ x = 0x31#8 := by
        by_contra hn
        have := bitOfSymbol_eq_none.2 hn
        rw [hx] at this
        cases this
      rw [List.forall_mem_cons, ← ih]
      cases hl : bitsOfSymbols l <;> simp [bitsOfSymbols, hx, hl, hb]

/-- The input bits of an operation whose input is d. -/
theorem State.hasInput.inputBits_eq {s : State} {d : BitString} (h : s.hasInput d) :
    inputBits s.inputSymbol d.length = some d := by
  have hl : (List.range d.length).map s.inputSymbol = d.map symbolOfBit := by
    apply List.ext_getElem (by simp)
    intro k h1 h2
    simpa using h.2 k (by simpa using h1)
  rw [inputBits, hl, bitsOfSymbols_map]

theorem State.hasInput.symbolsValid {s : State} {d : BitString} (h : s.hasInput d) : s.symbolsValid := by
  intro k hk
  rw [h.2 k (h.1 ▸ hk)]
  cases d[k]'(h.1 ▸ hk) <;> simp [symbolOfBit]

/-- Valid symbols are the symbols of some bit string of the input's length. -/
theorem State.symbolsValid.exists_input {s : State} (h : s.symbolsValid) : ∃ d, s.hasInput d := by
  have hs : (inputBits s.inputSymbol s.inLen.toNat).isSome = true := by
    rw [inputBits, bitsOfSymbols_isSome]
    intro x hx
    obtain ⟨k, hk, rfl⟩ := List.mem_map.1 hx
    exact h k (by simpa using hk)
  obtain ⟨d, hd⟩ := Option.isSome_iff_exists.1 hs
  have hl := bitsOfSymbols_eq_some hd
  have hlen : s.inLen.toNat = d.length := by simpa using congrArg List.length hl
  refine ⟨d, hlen, fun k hk => ?_⟩
  have := congrArg (fun l => l[k]?) hl
  simpa [hlen, hk] using this

theorem inputBits_none_of_invalid {s : State} (h : ¬s.symbolsValid) :
    inputBits s.inputSymbol s.inLen.toNat = none := by
  by_contra hn
  apply h
  have hs : (inputBits s.inputSymbol s.inLen.toNat).isSome = true := by
    cases hb : inputBits s.inputSymbol s.inLen.toNat
    · exact absurd hb hn
    · rfl
  rw [inputBits, bitsOfSymbols_isSome] at hs
  intro k hk
  exact hs _ (List.mem_map.2 ⟨k, by simpa using hk, rfl⟩)

/-- check() passes an input within MAX_LEN (60_exceptions.md R276). -/
theorem checkInput_ok {s : State} {d : BitString} (h : s.hasInput d) (hd : d ≠ [])
    (hm : d.length ≤ s.params.maxLen) :
    checkInput s.params.maxLen s.inputLength s.inputSymbol = .ok d := by
  have hl : s.inputLength = d.length := h.1
  have h0 : d.length ≠ 0 := by simpa using hd
  simp [checkInput, hl, h0, Nat.not_lt.2 hm, h.inputBits_eq]

theorem checkInput_empty {s : State} (h : s.inLen.toNat = 0) :
    checkInput s.params.maxLen s.inputLength s.inputSymbol = .error .invalidInput := by
  simp [checkInput, State.inputLength, h]

theorem checkInput_long {s : State} (h0 : s.inLen.toNat ≠ 0) (h : s.params.maxLen < s.inLen.toNat) :
    checkInput s.params.maxLen s.inputLength s.inputSymbol = .error .lengthError := by
  simp [checkInput, State.inputLength, h0, h]

theorem checkInput_bad {s : State} (h0 : s.inLen.toNat ≠ 0) (h : s.inLen.toNat ≤ s.params.maxLen)
    (hb : ¬s.symbolsValid) :
    checkInput s.params.maxLen s.inputLength s.inputSymbol = .error .invalidInput := by
  simp [checkInput, State.inputLength, h0, Nat.not_lt.2 h, inputBits_none_of_invalid hb]

/-- Everything check() can answer, with when it does. -/
theorem checkInput_cases (s : State) :
    (s.inLen.toNat = 0 ∧ checkInput s.params.maxLen s.inputLength s.inputSymbol = .error .invalidInput) ∨
    (s.inLen.toNat ≠ 0 ∧ s.params.maxLen < s.inLen.toNat ∧
      checkInput s.params.maxLen s.inputLength s.inputSymbol = .error .lengthError) ∨
    (s.inLen.toNat ≠ 0 ∧ s.inLen.toNat ≤ s.params.maxLen ∧ ¬s.symbolsValid ∧
      checkInput s.params.maxLen s.inputLength s.inputSymbol = .error .invalidInput) ∨
    (∃ d, s.hasInput d ∧ d ≠ [] ∧ d.length ≤ s.params.maxLen ∧
      checkInput s.params.maxLen s.inputLength s.inputSymbol = .ok d) := by
  by_cases h0 : s.inLen.toNat = 0
  · exact .inl ⟨h0, checkInput_empty h0⟩
  by_cases hm : s.params.maxLen < s.inLen.toNat
  · exact .inr (.inl ⟨h0, hm, checkInput_long h0 hm⟩)
  have hm' := Nat.not_lt.1 hm
  by_cases hv : s.symbolsValid
  · obtain ⟨d, hd⟩ := hv.exists_input
    have hne : d ≠ [] := by rintro rfl; exact h0 hd.1
    have hle : d.length ≤ s.params.maxLen := hd.1 ▸ hm'
    exact .inr (.inr (.inr ⟨d, hd, hne, hle, checkInput_ok hd hne hle⟩))
  · exact .inr (.inr (.inl ⟨h0, hm', hv, checkInput_bad h0 hm' hv⟩))

/-! ### Bit strings -/

@[simp] theorem setBit_length (c : BitString) (i : Nat) (v : Bit) : (setBit c i v).length = c.length := by
  simp [setBit]

theorem bitAt_setBit_same {c : BitString} {i : Nat} (h1 : 1 ≤ i) (h2 : i ≤ c.length) (v : Bit) :
    bitAt (setBit c i v) i = v := by
  have : i - 1 < c.length := by omega
  simp [bitAt, setBit, this]

theorem bitAt_setBit_other {c : BitString} {i j : Nat} (hi : 1 ≤ i) (hj : 1 ≤ j) (h : j ≠ i) (v : Bit) :
    bitAt (setBit c i v) j = bitAt c j := by
  have : i - 1 ≠ j - 1 := by omega
  simp [bitAt, setBit, List.getD_eq_getElem?_getD, List.getElem?_set_ne this]

theorem bitString_ext {c d : BitString} (hl : c.length = d.length)
    (h : ∀ j, 1 ≤ j → j ≤ c.length → bitAt c j = bitAt d j) : c = d := by
  apply List.ext_getElem hl
  intro k h1 h2
  have := h (k + 1) (by omega) (by omega)
  simpa [bitAt, h1, h2] using this

@[simp] theorem flipBit_length (c : BitString) (j : Nat) : (flipBit c j).length = c.length := by
  simp [flipBit]

theorem flipBit_flipBit {c : BitString} {j : Nat} (h1 : 1 ≤ j) (h2 : j ≤ c.length) : flipBit (flipBit c j) j = c := by
  apply bitString_ext (by simp)
  intro i hi _
  by_cases h : i = j
  · subst h
    simp [flipBit, bitAt_setBit_same, h1, h2]
  · simp [flipBit, bitAt_setBit_other, h1, hi, h]

/-- Only the symbols below the length are read (30_encoding.md R83). -/
theorem inputBits_congr {f g : Nat → Byte} {n : Nat} (h : ∀ k, k < n → f k = g k) :
    inputBits f n = inputBits g n := by
  unfold inputBits
  congr 1
  apply List.map_congr_left
  intro k hk
  exact h k (by simpa using hk)

end Sys2Proof.Machine
end

