-- ==== Sys2Proof/Laws/ParityGroup.lean ====
section
/-! SUPPORT. Laws of the parity groups and the XOR trees (41_parity_group.md). -/

namespace Sys2Proof.Machine

theorem mem_group {off n p j : Nat} : j ∈ group off n p ↔ p ≤ j ∧ j ≤ n ∧ inGroup off p j = true := by
  simp only [group, List.mem_filter, List.mem_range'_1]
  exact ⟨fun h => ⟨h.1.1, by omega, h.2⟩, fun h => ⟨⟨h.1, by omega⟩, h.2.2⟩⟩

theorem group_nodup (off n p : Nat) : (group off n p).Nodup := List.Nodup.filter _ (List.nodup_range')

theorem group_length_le (off n p : Nat) (hp : 1 ≤ p) : (group off n p).length ≤ n := by
  have := List.length_filter_le (inGroup off p) (List.range' p (n + 1 - p))
  simp only [List.length_range'] at this
  unfold group
  omega

/-- The bit whose value is 2^i is the bit of index i (41_parity_group.md R131). -/
theorem inGroup_two_pow (off i j : Nat) : inGroup off (2 ^ i) j = (j + off).testBit i := by
  rw [inGroup, Nat.and_two_pow]
  cases (j + off).testBit i <;> simp

/-- 41_parity_group.md R130 for a power of two. -/
theorem mem_group_two_pow {off n i j : Nat} :
    j ∈ group off n (2 ^ i) ↔ 2 ^ i ≤ j ∧ j ≤ n ∧ (j + off).testBit i = true := by
  rw [mem_group, inGroup_two_pow]

/-- 41_parity_group.md R136: off the uncovered positions the groups of j are the set bits of j + 1. -/
theorem mem_group_normative {n i j : Nat} (hn : j ≤ n) (h : ∀ k, j + 1 ≠ 2 ^ k) :
    j ∈ group 1 n (2 ^ i) ↔ (j + 1).testBit i = true := by
  rw [mem_group_two_pow]
  refine ⟨fun h => h.2.2, fun hb => ⟨?_, hn, hb⟩⟩
  have h1 := Nat.ge_two_pow_of_testBit hb
  have := h i
  omega

/-- 41_parity_group.md R137: a position j with j + 1 a power of two lies in no group. -/
theorem notMem_group_uncovered {n i j k : Nat} (h : j + 1 = 2 ^ k) : j ∉ group 1 n (2 ^ i) := by
  rw [mem_group_two_pow, h, Nat.testBit_two_pow]
  rintro ⟨h1, -, h2⟩
  have : k = i := by simpa using h2
  subst this
  omega

/-- 41_parity_group.md R139: with GROUP_OFFSET = 0 the groups of j are the set bits of j. -/
theorem mem_group_textbook {n i j : Nat} (hn : j ≤ n) : j ∈ group 0 n (2 ^ i) ↔ j.testBit i = true := by
  rw [mem_group_two_pow]
  refine ⟨fun h => h.2.2, fun hb => ⟨?_, hn, hb⟩⟩
  exact Nat.ge_two_pow_of_testBit hb

/-- 41_parity_group.md R138: Group(n, 1) is the even positions. -/
theorem mem_group_one {n j : Nat} : j ∈ group 1 n 1 ↔ 2 ≤ j ∧ j ≤ n ∧ j % 2 = 0 := by
  have h : j ∈ group 1 n (2 ^ 0) ↔ _ := mem_group_two_pow
  rw [Nat.pow_zero] at h
  rw [h, Nat.testBit_zero]
  simp only [decide_eq_true_eq]
  omega

/-- 41_parity_group.md R138: among the parity positions only 2^k itself lies in Group(n, 2^k), k >= 1. -/
theorem two_pow_mem_group_normative {n i k : Nat} (hk : 1 ≤ k) (hi : 2 ^ i ≤ n) :
    2 ^ i ∈ group 1 n (2 ^ k) ↔ i = k := by
  by_cases h0 : i = 0
  · subst h0
    have : (2 ^ 0) + 1 = 2 ^ 1 := by norm_num
    simp only [notMem_group_uncovered this, false_iff]
    omega
  rw [mem_group_two_pow]
  have hb : (2 ^ i + 1).testBit k = decide (i = k) := by
    obtain ⟨i, rfl⟩ := Nat.exists_eq_succ_of_ne_zero h0
    obtain ⟨k, rfl⟩ := Nat.exists_eq_succ_of_ne_zero (by omega : k ≠ 0)
    rw [Nat.testBit_succ]
    have : (2 ^ (i + 1) + 1) / 2 = 2 ^ i := by rw [Nat.pow_succ]; omega
    rw [this, Nat.testBit_two_pow]
    simp
  rw [hb]
  simp only [decide_eq_true_eq]
  refine ⟨fun h => h.2.2, fun h => ⟨by subst h; exact Nat.le_refl _, hi, h⟩⟩

/-- With GROUP_OFFSET = 0 the only parity position in a group is its own (41_parity_group.md R139). -/
theorem two_pow_mem_group_textbook {n i k : Nat} (hi : 2 ^ i ≤ n) : 2 ^ i ∈ group 0 n (2 ^ k) ↔ i = k := by
  rw [mem_group_textbook hi, Nat.testBit_two_pow]
  simp

/-! ### XOR trees -/

theorem foldl_xor (c : BitString) (l : List Nat) (v : Bit) :
    l.foldl (fun v i => v ^^ bitAt c i) v = (v ^^ xorAt c l) := by
  unfold xorAt
  induction l generalizing v with
  | nil => simp
  | cons a l ih =>
    rw [List.foldl_cons, List.foldl_cons, ih, ih (false ^^ bitAt c a)]
    simp

@[simp] theorem xorAt_nil (c : BitString) : xorAt c [] = false := rfl

@[simp] theorem xorAt_cons (c : BitString) (a : Nat) (l : List Nat) :
    xorAt c (a :: l) = (bitAt c a ^^ xorAt c l) := by
  rw [xorAt, List.foldl_cons, foldl_xor, Bool.false_xor]

theorem xorAt_congr {c d : BitString} {l : List Nat} (h : ∀ j ∈ l, bitAt c j = bitAt d j) :
    xorAt c l = xorAt d l := by
  induction l with
  | nil => rfl
  | cons a l ih =>
    rw [xorAt_cons, xorAt_cons, h a (by simp), ih fun j hj => h j (by simp [hj])]

theorem xorAt_zero {c : BitString} {l : List Nat} (h : ∀ j ∈ l, bitAt c j = false) : xorAt c l = false := by
  induction l with
  | nil => rfl
  | cons a l ih => rw [xorAt_cons, h a (by simp), ih fun j hj => h j (by simp [hj])]; rfl

theorem xorAt_filter (c : BitString) (l : List Nat) (q : Nat → Bool) :
    xorAt c l = (xorAt c (l.filter q) ^^ xorAt c (l.filter fun j => !q j)) := by
  induction l with
  | nil => rfl
  | cons a l ih =>
    rw [xorAt_cons, ih]
    cases hq : q a <;> simp [hq]
    cases bitAt c a <;> cases xorAt c (l.filter q) <;> simp

theorem xorAt_perm {c : BitString} {l l' : List Nat} (h : l.Perm l') : xorAt c l = xorAt c l' := by
  induction h with
  | nil => rfl
  | cons a _ ih => rw [xorAt_cons, xorAt_cons, ih]
  | swap a b l =>
    simp only [xorAt_cons]
    cases bitAt c a <;> cases bitAt c b <;> simp
  | trans _ _ ih1 ih2 => rw [ih1, ih2]

/-- Lists without repeats and with the same members XOR to the same bit. -/
theorem xorAt_of_mem_iff {c : BitString} {l l' : List Nat} (h1 : l.Nodup) (h2 : l'.Nodup)
    (h : ∀ j, j ∈ l ↔ j ∈ l') : xorAt c l = xorAt c l' :=
  xorAt_perm ((List.perm_ext_iff_of_nodup h1 h2).2 h)

/-- A bit off the positions does not count. -/
theorem xorAt_setBit_notMem {c : BitString} {l : List Nat} {i : Nat} {v : Bit} (hi : 1 ≤ i)
    (hl : ∀ j ∈ l, 1 ≤ j) (h : i ∉ l) : xorAt (setBit c i v) l = xorAt c l :=
  xorAt_congr fun j hj => bitAt_setBit_other hi (hl j hj) (by rintro rfl; exact h hj) v

/-- Flipping one of the positions flips the XOR. -/
theorem xorAt_flipBit_mem {c : BitString} {l : List Nat} {i : Nat} (hn : l.Nodup) (hl : ∀ j ∈ l, 1 ≤ j)
    (h : i ∈ l) (hi : i ≤ c.length) : xorAt (flipBit c i) l = !xorAt c l := by
  induction l with
  | nil => simp at h
  | cons a l ih =>
    rw [List.nodup_cons] at hn
    rw [xorAt_cons, xorAt_cons]
    by_cases ha : a = i
    · subst ha
      have hi1 := hl a (by simp)
      rw [flipBit, bitAt_setBit_same hi1 hi, xorAt_setBit_notMem hi1 (fun j hj => hl j (by simp [hj])) hn.1]
      cases bitAt c a <;> cases xorAt c l <;> rfl
    · have him : i ∈ l := by simpa [Ne.symm ha] using h
      have hi1 := hl i (by simp [him])
      rw [ih hn.2 (fun j hj => hl j (by simp [hj])) him, flipBit,
        bitAt_setBit_other hi1 (hl a (by simp)) ha]
      cases bitAt c a <;> cases xorAt c l <;> rfl

theorem group_pos {off n i : Nat} : ∀ j ∈ group off n (2 ^ i), 1 ≤ j := fun _ hj =>
  Nat.le_trans Nat.one_le_two_pow (mem_group.1 hj).1

/-- A flip of position j changes exactly the parity values whose groups contain j. -/
theorem parityValue_flipBit {off i j : Nat} {c : BitString} (h1 : 1 ≤ j) (h2 : j ≤ c.length) :
    parityValue off (flipBit c j) (2 ^ i) =
      (parityValue off c (2 ^ i) ^^ decide (j ∈ group off c.length (2 ^ i))) := by
  unfold parityValue
  rw [flipBit_length]
  by_cases h : j ∈ group off c.length (2 ^ i)
  · rw [xorAt_flipBit_mem (group_nodup ..) group_pos h h2]
    simp [h]
  · rw [flipBit, xorAt_setBit_notMem h1 group_pos h]
    simp [h]

/-- A parity beyond the string has an empty group (41_parity_group.md R134). -/
theorem parityValue_beyond {off p : Nat} {c : BitString} (h : c.length < p) : parityValue off c p = false := by
  have : group off c.length p = [] := by
    apply List.eq_nil_iff_forall_not_mem.2
    intro j hj
    have := mem_group.1 hj
    omega
  rw [parityValue, this, xorAt_nil]

@[simp] theorem entry_parityPosition (off n p : Nat) (v : Bit) : (entry off n p v).parityPosition = p := rfl
@[simp] theorem entry_affectedPositions (off n p : Nat) (v : Bit) :
    (entry off n p v).affectedPositions = group off n p := rfl
@[simp] theorem entry_parityValue (off n p : Nat) (v : Bit) : (entry off n p v).parityValue = v := rfl

end Sys2Proof.Machine
end

