-- ==== Sys2Proof/Laws/Decoder.lean ====
section
/-! SUPPORT. Laws of DECODE (44_decode.md): the checks, the error position, the three results. -/

namespace Sys2Proof.Machine

/-- The syndrome bit of check i (44_decode.md R222). -/
def syndrome (off : Nat) (b : BitString) (i : Nat) : Bit := parityValue off b (2 ^ i)

/-- The sum of the failing parity positions among the first k checks (44_decode.md R223). -/
def errorSum (f : Nat → Bit) (k : Nat) : Nat := ((List.range k).map fun i => if f i then 2 ^ i else 0).sum

@[simp] theorem errorSum_zero (f : Nat → Bit) : errorSum f 0 = 0 := rfl

theorem errorSum_succ (f : Nat → Bit) (k : Nat) : errorSum f (k + 1) = errorSum f k + if f k then 2 ^ k else 0 := by
  simp [errorSum, List.range_succ]

theorem errorSum_lt (f : Nat → Bit) (k : Nat) : errorSum f k < 2 ^ k := by
  induction k with
  | zero => simp
  | succ k ih => rw [errorSum_succ, Nat.pow_succ]; split <;> omega

/-- 44_decode.md R223: the syndrome vector is the error position's binary digits. -/
theorem errorSum_testBit (f : Nat → Bit) (k i : Nat) : (errorSum f k).testBit i = (decide (i < k) && f i) := by
  induction k with
  | zero => simp
  | succ k ih =>
    rw [errorSum_succ]
    have hlt := errorSum_lt f k
    cases hk : f k with
    | false =>
      simp only [Bool.false_eq_true, ↓reduceIte, Nat.add_zero, ih]
      by_cases h : i = k
      · subst h; simp [hk]
      · have : (i < k + 1) = (i < k) := by apply propext; omega
        simp [this]
    | true =>
      simp only [↓reduceIte]
      rw [Nat.add_comm]
      by_cases h : i = k
      · subst h
        rw [Nat.testBit_two_pow_add_eq, Nat.testBit_lt_two_pow hlt]
        simp [hk]
      · rcases Nat.lt_or_gt_of_ne h with h' | h'
        · rw [Nat.testBit_two_pow_add_gt h', ih]
          have : i < k + 1 := by omega
          simp [h', this]
        · have h1 : 2 ^ k + errorSum f k < 2 ^ i := by
            have : 2 ^ (k + 1) ≤ 2 ^ i := Nat.pow_le_pow_right (by omega) (by omega)
            rw [Nat.pow_succ] at this
            omega
          rw [Nat.testBit_lt_two_pow h1]
          have : ¬ i < k + 1 := by omega
          simp [this]

/-- What the checks give (44_decode.md R221 to R225). -/
theorem checkPass_eq (off : Nat) (b : BitString) :
    checkPass off b =
      { errPos := errorSum (syndrome off b) (checkCount b.length)
        table := (List.range (checkCount b.length)).map fun i => entry off b.length (2 ^ i) (syndrome off b i)
        events := (List.range (checkCount b.length)).map fun i => Event.check (2 ^ i) (syndrome off b i) } := by
  unfold checkPass
  generalize checkCount b.length = k
  induction k with
  | zero => rfl
  | succ k ih =>
    rw [List.range_succ, List.foldl_append, ih]
    simp only [List.foldl_cons, List.foldl_nil, checkStep, errorSum_succ, List.map_append, List.map_cons,
      List.map_nil, syndrome]
    congr 1
    split <;> simp_all

/-- The error position of b (44_decode.md R223). -/
def errorPosition (off : Nat) (b : BitString) : Nat := errorSum (syndrome off b) (checkCount b.length)

theorem errorPosition_testBit {off i : Nat} {b : BitString} (hb : 1 ≤ b.length) :
    (errorPosition off b).testBit i = (decide (2 ^ i ≤ b.length) && parityValue off b (2 ^ i)) := by
  rw [errorPosition, errorSum_testBit]
  have : (i < checkCount b.length) = (2 ^ i ≤ b.length) := propext (lt_flog2_succ_iff hb)
  simp [this, syndrome]

/-- A group beyond the string is empty, so the digit is the parity value itself. -/
theorem errorPosition_testBit' {off i : Nat} {b : BitString} (hb : 1 ≤ b.length) :
    (errorPosition off b).testBit i = parityValue off b (2 ^ i) := by
  rw [errorPosition_testBit hb]
  by_cases h : 2 ^ i ≤ b.length
  · simp [h]
  · simp [h, parityValue_beyond (Nat.not_le.1 h)]

/-- 44_decode.md R241. -/
theorem errorPosition_lt (off : Nat) (b : BitString) : errorPosition off b < 2 ^ (flog2 b.length + 1) := errorSum_lt ..

/-- 44_decode.md R243. -/
theorem errorPosition_lt_twice {off : Nat} {b : BitString} (hb : 1 ≤ b.length) : errorPosition off b < 2 * b.length := by
  have h1 := errorPosition_lt off b
  have h2 := two_pow_flog2_le hb
  rw [Nat.pow_succ] at h1
  omega

theorem correctedCopy_eq (b : BitString) (e : Nat) : correctedCopy b e = if e = 0 then b else flipBit b e := rfl

@[simp] theorem correctedCopy_length (b : BitString) (e : Nat) : (correctedCopy b e).length = b.length := by
  rw [correctedCopy_eq]; split <;> simp

theorem extractPayload_eq (w : BitString) : extractPayload w = (dataPositions w.length).map (bitAt w) := rfl

/-- The table of a DECODE (44_decode.md R224). -/
def checkTable (off : Nat) (b : BitString) : List Entry :=
  (List.range (checkCount b.length)).map fun i => entry off b.length (2 ^ i) (syndrome off b i)

/-- The CHECK events of a DECODE (44_decode.md R225). -/
def checkEvents (off : Nat) (b : BitString) : List Event :=
  (List.range (checkCount b.length)).map fun i => Event.check (2 ^ i) (syndrome off b i)

/-- 44_decode.md R227. -/
theorem decodeResult_uncorrectable {off : Nat} {b : BitString} (h : b.length < errorPosition off b) :
    decodeResult off b =
      { code := .uncorrectable, error := true, out := none, errPos := errorPosition off b, orig := some b, corr := none
        ptab := checkTable off b, hdist := 0, detect := 0, correct := 0
        log := checkEvents off b ++ [.uncorrectable (errorPosition off b)] } := by
  have h' : b.length < errorSum (syndrome off b) (checkCount b.length) := h
  simp only [decodeResult, checkPass_eq, h', ↓reduceIte]
  rfl

/-- 44_decode.md R231. -/
theorem decodeResult_ok {off : Nat} {b : BitString} (h : errorPosition off b = 0) :
    decodeResult off b =
      { code := .ok, error := false, out := some ((dataPositions b.length).map (bitAt b)), errPos := 0, orig := none
        corr := none, ptab := checkTable off b, hdist := 0, detect := 0, correct := 0, log := checkEvents off b } := by
  have h' : errorSum (syndrome off b) (checkCount b.length) = 0 := h
  simp only [decodeResult, checkPass_eq, h', Nat.not_lt_zero, ↓reduceIte]
  rfl

/-- 44_decode.md R232. -/
theorem decodeResult_corrected {off : Nat} {b : BitString} (h0 : errorPosition off b ≠ 0)
    (h : errorPosition off b ≤ b.length) :
    decodeResult off b =
      { code := .corrected, error := false
        out := some ((dataPositions b.length).map (bitAt (flipBit b (errorPosition off b))))
        errPos := errorPosition off b, orig := some b, corr := some (flipBit b (errorPosition off b))
        ptab := checkTable off b, hdist := 0, detect := 0, correct := 0
        log := checkEvents off b ++ [.correct (errorPosition off b)] } := by
  have h0' : errorSum (syndrome off b) (checkCount b.length) ≠ 0 := h0
  have h' : ¬ b.length < errorSum (syndrome off b) (checkCount b.length) := Nat.not_lt.2 h
  simp only [decodeResult, checkPass_eq, h0', h', ↓reduceIte, extractPayload_eq, flipBit_length,
    correctedCopy_eq]
  rfl

/-- Whatever the result, ERRPOS is the error position (0 when errorDetails is absent). -/
@[simp] theorem decodeResult_errPos (off : Nat) (b : BitString) :
    (decodeResult off b).errPos = errorPosition off b := by
  by_cases h0 : errorPosition off b = 0
  · rw [decodeResult_ok h0, h0]
  by_cases h : b.length < errorPosition off b
  · rw [decodeResult_uncorrectable h]
  · rw [decodeResult_corrected h0 (Nat.not_lt.1 h)]

/-- DECODE of a decodable string (44_decode.md R220). -/
theorem State.decodable.decodeOp_eq {s : State} {b : BitString} (h : s.decodable b) :
    decodeOp s.params s.inputLength s.inputSymbol = .ok (decodeResult s.off b) := by
  obtain ⟨hi, hd, hm⟩ := h
  rw [decodeOp, checkInput_ok hi hd hm]
  rfl

theorem State.decodable.length_pos {s : State} {b : BitString} (h : s.decodable b) : 1 ≤ b.length :=
  List.length_pos_iff.2 h.2.1

theorem State.decodable.execDecode_eq {s : State} {b : BitString} (h : s.decodable b) :
    execDecode s = .next (s.finish (decodeResult s.off b)) := by
  rw [execDecode, h.decodeOp_eq]; rfl

/-- The error position after a flip: the digits of the groups that contain the position change (44_decode.md R247). -/
theorem errorPosition_flipBit_testBit {off i j : Nat} {c : BitString} (h1 : 1 ≤ j) (h2 : j ≤ c.length) :
    (errorPosition off (flipBit c j)).testBit i =
      ((errorPosition off c).testBit i ^^ decide (j ∈ group off c.length (2 ^ i))) := by
  have hc : 1 ≤ c.length := by omega
  rw [errorPosition_testBit' (by simpa using hc), errorPosition_testBit' hc, parityValue_flipBit h1 h2]

/-- DECODE has three results and no other (44_decode.md R227, R231, R232). -/
theorem decodeResult_code (off : Nat) (b : BitString) :
    (decodeResult off b).code = .ok ∨ (decodeResult off b).code = .corrected ∨
      (decodeResult off b).code = .uncorrectable := by
  unfold decodeResult
  dsimp only
  split
  · simp
  · split <;> simp

/-- The three cases of the error position (44_decode.md R227, R231, R232). -/
theorem errorPosition_cases (off : Nat) (b : BitString) :
    b.length < errorPosition off b ∨ errorPosition off b = 0 ∨
      (errorPosition off b ≠ 0 ∧ errorPosition off b ≤ b.length) := by omega

end Sys2Proof.Machine
end

