-- ==== Sys2Proof/Laws/Encoder.lean ====
section
/-! SUPPORT. Laws of ENCODE (42_encode.md): the placeholder codeword, the parity pass, the codeword. -/

namespace Sys2Proof.Machine

/-! ### The placeholder codeword -/

@[simp] theorem placeFrom_length (count pos : Nat) (d : BitString) : (placeFrom count pos d).length = count := by
  induction count generalizing pos d with
  | zero => rfl
  | succ count ih => unfold placeFrom; split <;> simp [ih]

/-- Position pos + k of the walk holds 0 when it is a parity position (42_encode.md R163). -/
theorem placeFrom_parity {count pos k : Nat} {d : BitString} (hk : k < count)
    (hp : isParityPosition (pos + k) = true) : (placeFrom count pos d)[k]? = some false := by
  induction count generalizing pos k d with
  | zero => omega
  | succ count ih =>
    cases k with
    | zero => unfold placeFrom; simp_all
    | succ k =>
      have h' : isParityPosition (pos + 1 + k) = true := by rw [← hp]; congr 1; omega
      unfold placeFrom
      split
      · simpa using ih (d := d) (by omega) h'
      · simpa using ih (d := d.tail) (by omega) h'

/-- The data positions of the walk hold the payload in order, when it has as many bits (42_encode.md R163). -/
theorem placeFrom_data {count pos : Nat} {d : BitString}
    (h : ((List.range' pos count).filter fun j => !isParityPosition j).length = d.length) :
    ((List.range' pos count).filter fun j => !isParityPosition j).map
      (fun j => (placeFrom count pos d).getD (j - pos) false) = d := by
  induction count generalizing pos d with
  | zero => cases d <;> simp_all
  | succ count ih =>
    have step : ∀ (b : Bit) (e : BitString),
        ((List.range' (pos + 1) count).filter fun j => !isParityPosition j).map
          (fun j => (b :: placeFrom count (pos + 1) e).getD (j - pos) false) =
        ((List.range' (pos + 1) count).filter fun j => !isParityPosition j).map
          (fun j => (placeFrom count (pos + 1) e).getD (j - (pos + 1)) false) := by
      intro b e
      apply List.map_congr_left
      intro j hj
      have : pos + 1 ≤ j := (List.mem_range'_1.1 (List.mem_filter.1 hj).1).1
      obtain ⟨k, rfl⟩ := Nat.exists_eq_add_of_le this
      have e1 : pos + 1 + k - pos = k + 1 := by omega
      have e2 : pos + 1 + k - (pos + 1) = k := by omega
      rw [e1, e2, List.getD_cons_succ]
    rw [List.range'_succ] at h ⊢
    unfold placeFrom
    cases hp : isParityPosition pos with
    | true =>
      simp only [hp, Bool.not_true, List.filter_cons, Bool.false_eq_true, ↓reduceIte] at h ⊢
      rw [step, ih h]
    | false =>
      simp only [hp, Bool.not_false, List.filter_cons, ↓reduceIte, List.length_cons] at h
      cases d with
      | nil => simp at h
      | cons b e =>
        simp only [hp, Bool.not_false, List.filter_cons, ↓reduceIte, List.map_cons, Nat.sub_self,
          List.headD_cons, List.tail_cons, Bool.false_eq_true]
        rw [step, ih (by simpa using h)]
        simp

@[simp] theorem placeholderCodeword_length (n : Nat) (d : BitString) : (placeholderCodeword n d).length = n :=
  placeFrom_length ..

theorem placeholderCodeword_parity {n i : Nat} (d : BitString) (h : 2 ^ i ≤ n) :
    bitAt (placeholderCodeword n d) (2 ^ i) = false := by
  have h1 : 1 ≤ 2 ^ i := Nat.one_le_two_pow
  have h2 : (placeholderCodeword n d)[2 ^ i - 1]? = some false := by
    apply placeFrom_parity (by omega)
    have : 1 + (2 ^ i - 1) = 2 ^ i := by omega
    rw [this]; exact isParityPosition_two_pow i
  simp [bitAt, List.getD_eq_getElem?_getD, h2]

theorem placeholderCodeword_data {n : Nat} {d : BitString} (h : (dataPositions n).length = d.length) :
    (dataPositions n).map (bitAt (placeholderCodeword n d)) = d := placeFrom_data h

/-! ### The parity pass -/

/-- The codeword after the first k parity bits: the parity values over the placeholder codeword at those positions,
the placeholder codeword elsewhere (42_encode.md R164, R173). -/
def afterParity (off : Nat) (ph : BitString) : Nat → BitString
  | 0 => ph
  | k + 1 => setBit (afterParity off ph k) (2 ^ k) (parityValue off ph (2 ^ k))

@[simp] theorem afterParity_length (off : Nat) (ph : BitString) (k : Nat) : (afterParity off ph k).length = ph.length := by
  induction k with
  | zero => rfl
  | succ k ih => simp [afterParity, ih]

theorem bitAt_afterParity_other {off k j : Nat} {ph : BitString} (hj : 1 ≤ j) (h : ∀ i, i < k → j ≠ 2 ^ i) :
    bitAt (afterParity off ph k) j = bitAt ph j := by
  induction k with
  | zero => rfl
  | succ k ih =>
    rw [afterParity, bitAt_setBit_other Nat.one_le_two_pow hj (h k (by omega)), ih fun i hi => h i (by omega)]

theorem bitAt_afterParity_two_pow {off k i : Nat} {ph : BitString} (hi : i < k) (hn : 2 ^ i ≤ ph.length) :
    bitAt (afterParity off ph k) (2 ^ i) = parityValue off ph (2 ^ i) := by
  induction k with
  | zero => omega
  | succ k ih =>
    rw [afterParity]
    by_cases h : i = k
    · subst h
      rw [bitAt_setBit_same Nat.one_le_two_pow (by simpa using hn)]
    · have hne : 2 ^ i ≠ 2 ^ k := fun he => h (Nat.pow_right_injective (Nat.le_refl 2) he)
      rw [bitAt_setBit_other Nat.one_le_two_pow Nat.one_le_two_pow hne, ih (by omega)]

/-- The scan of group 2^k starts at 2^k, so the parity bits already written do not count (42_encode.md R173). -/
theorem parityValue_afterParity (off k : Nat) (ph : BitString) :
    parityValue off (afterParity off ph k) (2 ^ k) = parityValue off ph (2 ^ k) := by
  unfold parityValue
  rw [afterParity_length]
  apply xorAt_congr
  intro j hj
  have hk := (mem_group.1 hj).1
  refine bitAt_afterParity_other (Nat.le_trans Nat.one_le_two_pow hk) fun i hi he => ?_
  have : 2 ^ i < 2 ^ k := Nat.pow_lt_pow_right (by omega) hi
  omega

/-- What the parity pass gives (42_encode.md R164, R168). -/
theorem parityPass_eq (off n r : Nat) (ph : BitString) :
    parityPass off n r ph =
      { codeword := afterParity off ph r
        table := (List.range r).map fun t => entry off n (2 ^ t) (parityValue off ph (2 ^ t))
        events := (List.range r).map fun t => Event.parity (2 ^ t) (parityValue off ph (2 ^ t)) } := by
  unfold parityPass
  induction r with
  | zero => rfl
  | succ r ih =>
    rw [List.range_succ, List.foldl_append, ih]
    simp [parityStep, parityValue_afterParity, afterParity]

/-! ### The codeword -/

/-- The codeword of payload d (42_encode.md R167). -/
def codewordOf (off : Nat) (d : BitString) : BitString :=
  afterParity off (placeholderCodeword (d.length + requiredParityBits d.length) d) (requiredParityBits d.length)

@[simp] theorem codewordOf_length (off : Nat) (d : BitString) :
    (codewordOf off d).length = d.length + requiredParityBits d.length := by simp [codewordOf]

/-- Every parity position of the codeword is one the pass writes (40_classifier.md R117). -/
theorem two_pow_le_codeword {m i : Nat} (h : 1 ≤ m) :
    2 ^ i ≤ m + requiredParityBits m ↔ i < requiredParityBits m := by
  have hr := two_le_requiredParityBits h
  rw [← lt_flog2_succ_iff (by omega), flog2_codeword_length h]
  omega

theorem codewordOf_parity {off i : Nat} {d : BitString} (hd : 1 ≤ d.length) (h : i < requiredParityBits d.length) :
    bitAt (codewordOf off d) (2 ^ i) =
      parityValue off (placeholderCodeword (d.length + requiredParityBits d.length) d) (2 ^ i) :=
  bitAt_afterParity_two_pow h (by simpa using (two_pow_le_codeword hd).2 h)

theorem codewordOf_other {off j : Nat} {d : BitString} (hj : 1 ≤ j) (h : isParityPosition j = false) :
    bitAt (codewordOf off d) j =
      bitAt (placeholderCodeword (d.length + requiredParityBits d.length) d) j := by
  refine bitAt_afterParity_other hj fun i _ he => ?_
  rw [he, isParityPosition_two_pow] at h
  cases h

/-- 42_encode.md R163: the data positions hold the payload in order. -/
theorem codewordOf_data {off : Nat} {d : BitString} (hd : 1 ≤ d.length) :
    (dataPositions (d.length + requiredParityBits d.length)).map (bitAt (codewordOf off d)) = d := by
  refine Eq.trans (List.map_congr_left fun j hj => ?_)
    (placeholderCodeword_data (d := d) (dataPositions_codeword_length hd))
  obtain ⟨h1, -, h3⟩ := mem_dataPositions.1 hj
  exact codewordOf_other h1 h3

/-- The placeholder codeword is the codeword with its parity bits cleared. -/
theorem clearParity_codewordOf (off : Nat) (d : BitString) :
    clearParity (codewordOf off d) = placeholderCodeword (d.length + requiredParityBits d.length) d := by
  apply bitString_ext (by simp [clearParity])
  intro j h1 h2
  have h2' : j ≤ d.length + requiredParityBits d.length := by simpa [clearParity] using h2
  have e : bitAt (clearParity (codewordOf off d)) j = (!isParityPosition j && bitAt (codewordOf off d) j) := by
    have : j - 1 < d.length + requiredParityBits d.length := by omega
    have e1 : 1 + (j - 1) = j := by omega
    simp [clearParity, bitAt, List.getD_eq_getElem?_getD, this, e1]
  rw [e]
  cases hp : isParityPosition j with
  | true =>
    obtain ⟨k, rfl⟩ := (isParityPosition_iff h1).1 hp
    simp [placeholderCodeword_parity d h2']
  | false => simp [codewordOf_other h1 hp]

/-- The result state of an ENCODE in closed form (42_encode.md R172). -/
theorem encodeResult_eq {off : Nat} {d : BitString} (hd : 1 ≤ d.length) :
    encodeResult off d =
      { code := .ok, error := false, out := some (codewordOf off d), errPos := 0, orig := none, corr := none
        ptab := (List.range (requiredParityBits d.length)).map fun t =>
          entry off (d.length + requiredParityBits d.length) (2 ^ t) (bitAt (codewordOf off d) (2 ^ t))
        hdist := flog2 d.length + 1, detect := flog2 d.length, correct := flog2 d.length / 2
        log := .len d.length (requiredParityBits d.length) ::
          ((parityPositions (requiredParityBits d.length)).map Event.placeholder ++
            (parityPositions (requiredParityBits d.length)).map
              fun p => Event.parity p (bitAt (codewordOf off d) p)) } := by
  have hr := two_le_requiredParityBits hd
  have hf : placeholderEvents (d.length + requiredParityBits d.length) =
      (parityPositions (requiredParityBits d.length)).map Event.placeholder := by
    rw [placeholderEvents, filter_isParityPosition (by omega), flog2_codeword_length hd, Nat.sub_add_cancel (by omega)]
  have ht : (List.range (requiredParityBits d.length)).map (fun t =>
        entry off (d.length + requiredParityBits d.length) (2 ^ t)
          (parityValue off (placeholderCodeword (d.length + requiredParityBits d.length) d) (2 ^ t))) =
      (List.range (requiredParityBits d.length)).map fun t =>
        entry off (d.length + requiredParityBits d.length) (2 ^ t) (bitAt (codewordOf off d) (2 ^ t)) := by
    apply List.map_congr_left
    intro t ht
    rw [codewordOf_parity hd (by simpa using ht)]
  have he : (List.range (requiredParityBits d.length)).map (fun t => Event.parity (2 ^ t)
        (parityValue off (placeholderCodeword (d.length + requiredParityBits d.length) d) (2 ^ t))) =
      (parityPositions (requiredParityBits d.length)).map fun p => Event.parity p (bitAt (codewordOf off d) p) := by
    rw [parityPositions, List.map_map]
    apply List.map_congr_left
    intro t ht
    rw [Function.comp_apply, codewordOf_parity hd (by simpa using ht)]
  simp only [encodeResult, parityPass_eq, hf, ht, he, minDistance, detectable, correctable, Nat.add_sub_cancel]
  rfl

/-- ENCODE of an encodable payload (42_encode.md R160). -/
theorem State.encodable.encodeOp_eq {s : State} {d : BitString} (h : s.encodable d) :
    encodeOp s.params s.inputLength s.inputSymbol = .ok (encodeResult s.off d) := by
  obtain ⟨hi, hd, hm⟩ := h
  have hl : s.inputLength = d.length := hi.1
  rw [encodeOp, checkInput_ok hi hd (by omega)]
  simp only [hl, Nat.not_lt.2 hm, ↓reduceIte]
  rfl

theorem State.encodable.length_pos {s : State} {d : BitString} (h : s.encodable d) : 1 ≤ d.length :=
  List.length_pos_iff.2 h.2.1

theorem State.encodable.execEncode_eq {s : State} {d : BitString} (h : s.encodable d) :
    execEncode s = .next (s.finish (encodeResult s.off d)) := by
  rw [execEncode, h.encodeOp_eq]; rfl

/-! ### Parity values of the finished codeword -/

/-- The XOR of the codeword over data positions is the placeholder codeword's. -/
theorem xorAt_codewordOf_data {off : Nat} {d : BitString} {l : List Nat}
    (h : ∀ j ∈ l, 1 ≤ j ∧ isParityPosition j = false) :
    xorAt (codewordOf off d) l =
      xorAt (placeholderCodeword (d.length + requiredParityBits d.length) d) l :=
  xorAt_congr fun j hj => codewordOf_other (h j hj).1 (h j hj).2

/-- A group whose only parity position is its own: the parity bit is the XOR over its other positions, and the parity
value recomputed over the codeword is 0 (42_encode.md R174, R175). -/
theorem codewordOf_own_group {off i : Nat} {d : BitString} (hd : 1 ≤ d.length)
    (hi : i < requiredParityBits d.length)
    (hown : ∀ k, 2 ^ k ≤ d.length + requiredParityBits d.length →
      (2 ^ k ∈ group off (d.length + requiredParityBits d.length) (2 ^ i) ↔ k = i)) :
    bitAt (codewordOf off d) (2 ^ i) =
      xorAt (codewordOf off d)
        ((group off (d.length + requiredParityBits d.length) (2 ^ i)).filter fun j => j != 2 ^ i) ∧
    parityValue off (codewordOf off d) (2 ^ i) = false := by
  have hin := (two_pow_le_codeword hd).2 hi
  have hdata : ∀ j ∈ (group off (d.length + requiredParityBits d.length) (2 ^ i)).filter fun j => j != 2 ^ i,
      1 ≤ j ∧ isParityPosition j = false := by
    intro j hj
    obtain ⟨hg, hne⟩ := List.mem_filter.1 hj
    have h1 := group_pos j hg
    refine ⟨h1, Bool.eq_false_iff.2 fun hp => ?_⟩
    obtain ⟨k, rfl⟩ := (isParityPosition_iff h1).1 hp
    have := (hown k (mem_group.1 hg).2.1).1 hg
    subst this
    simp at hne
  have hself : (group off (d.length + requiredParityBits d.length) (2 ^ i)).filter (fun j => !(j != 2 ^ i)) =
      [2 ^ i] := by
    have hmem : 2 ^ i ∈ group off (d.length + requiredParityBits d.length) (2 ^ i) := (hown i hin).2 rfl
    apply List.perm_singleton.1
    rw [List.perm_ext_iff_of_nodup (List.Nodup.filter _ (group_nodup ..)) (by simp)]
    intro j
    simp only [List.mem_filter, Bool.not_eq_true', bne_eq_false_iff_eq, List.mem_singleton]
    exact ⟨fun h => h.2, fun h => ⟨by rw [h]; exact hmem, h⟩⟩
  have hph : parityValue off (placeholderCodeword (d.length + requiredParityBits d.length) d) (2 ^ i) =
      xorAt (codewordOf off d)
        ((group off (d.length + requiredParityBits d.length) (2 ^ i)).filter fun j => j != 2 ^ i) := by
    rw [parityValue, placeholderCodeword_length, xorAt_filter _ _ (fun j => j != 2 ^ i), hself,
      xorAt_codewordOf_data hdata]
    simp [placeholderCodeword_parity d hin]
  refine ⟨by rw [codewordOf_parity hd hi, hph], ?_⟩
  rw [parityValue, codewordOf_length, xorAt_filter _ _ (fun j => j != 2 ^ i), hself, xorAt_cons, xorAt_nil,
    codewordOf_parity hd hi, hph]
  simp

/-- 42_encode.md R175, p >= 2. -/
theorem recheck_normative {i : Nat} {d : BitString} (hd : 1 ≤ d.length) (hi : 1 ≤ i) :
    parityValue 1 (codewordOf 1 d) (2 ^ i) = false := by
  by_cases h : i < requiredParityBits d.length
  · exact (codewordOf_own_group hd h fun k hk => two_pow_mem_group_normative hi hk).2
  · apply parityValue_beyond
    rw [codewordOf_length]
    exact Nat.not_le.1 fun hn => h ((two_pow_le_codeword hd).1 hn)

/-- 42_encode.md R175 for GROUP_OFFSET = 0. -/
theorem recheck_textbook {i : Nat} {d : BitString} (hd : 1 ≤ d.length) :
    parityValue 0 (codewordOf 0 d) (2 ^ i) = false := by
  by_cases h : i < requiredParityBits d.length
  · exact (codewordOf_own_group hd h fun k hk => two_pow_mem_group_textbook hk).2
  · apply parityValue_beyond
    rw [codewordOf_length]
    exact Nat.not_le.1 fun hn => h ((two_pow_le_codeword hd).1 hn)

theorem parityPositions_nodup (r : Nat) : (parityPositions r).Nodup := by
  apply List.Nodup.map _ List.nodup_range
  exact Nat.pow_right_injective (Nat.le_refl 2)

/-- The even positions of 1..n split into the even data positions and the parity positions from 2 on. -/
theorem xorAt_group_one {n r : Nat} (hr : ∀ i, 2 ^ i ≤ n ↔ i < r) (c : BitString) :
    xorAt c (group 1 n 1) =
      (xorAt c ((dataPositions n).filter fun j => j % 2 == 0) ^^ xorAt c ((parityPositions r).filter fun j => j != 1)) := by
  rw [xorAt_filter c (group 1 n 1) fun j => !isParityPosition j]
  congr 1
  · apply xorAt_of_mem_iff (List.Nodup.filter _ (group_nodup ..)) (List.Nodup.filter _ (dataPositions_nodup n))
    intro j
    simp only [List.mem_filter, mem_group_one, mem_dataPositions, beq_iff_eq, Bool.not_eq_true']
    exact ⟨fun h => ⟨⟨by omega, h.1.2.1, h.2⟩, h.1.2.2⟩, fun h => ⟨⟨by omega, h.1.2.1, h.2⟩, h.1.2.2⟩⟩
  · apply xorAt_of_mem_iff (List.Nodup.filter _ (group_nodup ..)) (List.Nodup.filter _ (parityPositions_nodup r))
    intro j
    simp only [List.mem_filter, mem_group_one, mem_parityPositions, bne_iff_ne, Bool.not_not]
    constructor
    · rintro ⟨⟨h1, h2, h3⟩, hp⟩
      obtain ⟨k, rfl⟩ := (isParityPosition_iff (by omega)).1 hp
      exact ⟨⟨k, (hr k).1 h2, rfl⟩, by omega⟩
    · rintro ⟨⟨k, hk, rfl⟩, hne⟩
      have hk0 : k ≠ 0 := by rintro rfl; simp at hne
      obtain ⟨q, rfl⟩ := Nat.exists_eq_succ_of_ne_zero hk0
      have h1 : 1 ≤ 2 ^ q := Nat.one_le_two_pow
      have h2 : 2 ^ (q + 1) = 2 * 2 ^ q := by rw [Nat.pow_succ]; omega
      exact ⟨⟨by simp only [Nat.succ_eq_add_one]; omega, (hr _).2 hk, by simp only [Nat.succ_eq_add_one]; omega⟩,
        isParityPosition_two_pow _⟩

/-- 42_encode.md R174: parity bit 1 is the XOR of the payload bits at the even data positions. -/
theorem codewordOf_parity_one {d : BitString} (hd : 1 ≤ d.length) :
    bitAt (codewordOf 1 d) 1 =
      xorAt (codewordOf 1 d)
        ((dataPositions (d.length + requiredParityBits d.length)).filter fun j => j % 2 == 0) := by
  have hr := two_le_requiredParityBits hd
  have h0 := codewordOf_parity (off := 1) hd (i := 0) (by omega)
  rw [Nat.pow_zero] at h0
  rw [h0, parityValue, placeholderCodeword_length, xorAt_group_one fun i => two_pow_le_codeword hd]
  rw [xorAt_zero (l := (parityPositions _).filter _), Bool.xor_false]
  · refine (xorAt_codewordOf_data fun j hj => ?_).symm
    obtain ⟨h1, -, h3⟩ := mem_dataPositions.1 (List.mem_filter.1 hj).1
    exact ⟨h1, h3⟩
  · intro j hj
    obtain ⟨k, hk, rfl⟩ := mem_parityPositions.1 (List.mem_filter.1 hj).1
    exact placeholderCodeword_parity d ((two_pow_le_codeword hd).2 hk)

/-- 42_encode.md R175, p = 1: the XOR of all the parity bits. -/
theorem recheck_normative_one {d : BitString} (hd : 1 ≤ d.length) :
    parityValue 1 (codewordOf 1 d) 1 =
      xorAt (codewordOf 1 d) (parityPositions (requiredParityBits d.length)) := by
  have hr := two_le_requiredParityBits hd
  rw [parityValue, codewordOf_length, xorAt_group_one fun i => two_pow_le_codeword hd, ← codewordOf_parity_one hd,
    xorAt_filter _ (parityPositions _) fun j => !(j != 1)]
  have hone : (parityPositions (requiredParityBits d.length)).filter (fun j => !(j != 1)) = [1] := by
    apply List.perm_singleton.1
    rw [List.perm_ext_iff_of_nodup (List.Nodup.filter _ (parityPositions_nodup _)) (by simp)]
    intro j
    simp only [List.mem_filter, Bool.not_eq_true', bne_eq_false_iff_eq, List.mem_singleton, mem_parityPositions]
    exact ⟨fun h => h.2, fun h => ⟨⟨0, by omega, by simp [h]⟩, h⟩⟩
  rw [hone, xorAt_cons, xorAt_nil]
  simp

end Sys2Proof.Machine
end

