-- ==== Sys2Proof/Laws/Step.lean ====
section
/-! SUPPORT. What a step can do, said once: the frame of a host line, of an operation, of a completion. -/

namespace Sys2Proof.Machine

/-- What no host step changes, and what it changes only when the block is not busy (20_memory.md R62, R63, R68). -/
structure HostFrame (s t : State) : Prop where
  params : t.params = s.params
  result : t.result = s.result
  resetDraw : t.resetDraw = s.resetDraw
  resets : t.resets = s.resets
  program : t.host.program = s.host.program
  locked : s.busy = true →
    t.busy = true ∧ t.done = s.done ∧ t.ctrlOp = s.ctrlOp ∧ t.inLen = s.inLen ∧ t.inBuf = s.inBuf ∧
      t.latency = s.latency
  phase : s.busy = false → (t.busy = false ∧ t.done = s.done) ∨ (t.busy = true ∧ t.done = false)
  memory : Memory.wf s.params.maxLen s.inBuf → Memory.wf t.params.maxLen t.inBuf

theorem HostFrame.refl (s : State) : HostFrame s s :=
  ⟨rfl, rfl, rfl, rfl, rfl, fun h => ⟨h, rfl, rfl, rfl, rfl, rfl⟩, fun h => .inl ⟨h, rfl⟩, id⟩

theorem HostFrame.trans {s t u : State} (h1 : HostFrame s t) (h2 : HostFrame t u) : HostFrame s u where
  params := h2.params.trans h1.params
  result := h2.result.trans h1.result
  resetDraw := h2.resetDraw.trans h1.resetDraw
  resets := h2.resets.trans h1.resets
  program := h2.program.trans h1.program
  locked hb := by
    obtain ⟨a1, a2, a3, a4, a5, a6⟩ := h1.locked hb
    obtain ⟨b1, b2, b3, b4, b5, b6⟩ := h2.locked a1
    exact ⟨b1, b2.trans a2, b3.trans a3, b4.trans a4, b5.trans a5, b6.trans a6⟩
  phase hb := by
    rcases h1.phase hb with ⟨a, b⟩ | ⟨a, b⟩
    · rw [← b]; exact h2.phase a
    · obtain ⟨c1, c2, -⟩ := h2.locked a
      exact .inr ⟨c1, c2.trans b⟩
  memory := h2.memory ∘ h1.memory

theorem HostFrame.draw (s : State) : HostFrame s { s with draws := s.draws + 1 } :=
  ⟨rfl, rfl, rfl, rfl, rfl, fun h => ⟨h, rfl, rfl, rfl, rfl, rfl⟩, fun h => .inl ⟨h, rfl⟩, id⟩

theorem HostFrame.host (s : State) (line : Nat) (vars : List (Nat × Word)) :
    HostFrame s { s with host := { s.host with vars := vars, line := line } } :=
  ⟨rfl, rfl, rfl, rfl, rfl, fun h => ⟨h, rfl, rfl, rfl, rfl, rfl⟩, fun h => .inl ⟨h, rfl⟩, id⟩

theorem HostFrame.hostGoto (s : State) (n : Nat) : HostFrame s (s.hostGoto n) := HostFrame.host s n s.host.vars

theorem HostFrame.hostNext (s : State) : HostFrame s s.hostNext := HostFrame.hostGoto s _

theorem HostFrame.hostAssign (s : State) (x : Nat) (v : Word) : HostFrame s (s.hostAssign x v) :=
  HostFrame.host s _ _

theorem HostFrame.regRead (s : State) (r : Reg) : HostFrame s (s.regRead r).2 := by
  rcases regRead_state s r with h | ⟨-, h⟩ <;> rw [h]
  · exact .refl s
  · exact .draw s

theorem HostFrame.bufRead (s : State) (e : ElemRef) : HostFrame s (s.bufRead e).2 := by
  rcases bufRead_state s e with h | h <;> rw [h]
  · exact .refl s
  · exact .draw s

theorem HostFrame.extract (s : State) (y hi lo : Nat) : HostFrame s (s.extract y hi lo).2 := by
  unfold State.extract
  split
  · exact .refl s
  · exact .draw s

theorem HostFrame.regWrite (s : State) (r : Reg) (v : Word) : HostFrame s (s.regWrite r v) := by
  rcases regWrite_cases s r v with h | ⟨hb, -, h⟩ | ⟨hb, -, h⟩ | ⟨hb, -, h⟩ <;> rw [h]
  · exact .refl s
  · exact ⟨rfl, rfl, rfl, rfl, rfl, fun h => by simp [hb] at h, fun h => .inl ⟨h, rfl⟩, id⟩
  · exact ⟨rfl, rfl, rfl, rfl, rfl, fun h => by simp [hb] at h, fun h => .inl ⟨h, rfl⟩, id⟩
  · exact ⟨rfl, rfl, rfl, rfl, rfl, fun h => by simp [hb] at h, fun _ => .inr ⟨rfl, rfl⟩, id⟩

theorem HostFrame.bufWrite (s : State) (e : ElemRef) (v : Word) : HostFrame s (s.bufWrite e v) := by
  rcases bufWrite_cases s e v with h | ⟨k, -, hb, -, h⟩ <;> rw [h]
  · exact .refl s
  · exact ⟨rfl, rfl, rfl, rfl, rfl, fun h => by simp [hb] at h, fun h => .inl ⟨h, rfl⟩, fun hm => Memory.write_wf _ _ hm⟩

theorem HostFrame.readTarget (s : State) (t : BusTarget) : HostFrame s (s.readTarget t).2 := by
  cases t with
  | reg r => exact .regRead s r
  | elem e => exact .bufRead s e

theorem HostFrame.writeTarget (s : State) (t : BusTarget) (v : Word) : HostFrame s (s.writeTarget t v) := by
  cases t with
  | reg r => exact .regWrite s r v
  | elem e => exact .bufWrite s e v

theorem HostFrame.hostJump {s t : State} {l : Nat} (h : s.hostJump l = .next t) : HostFrame s t := by
  unfold State.hostJump at h
  split at h
  · cases h; exact .hostGoto s _
  · cases h

theorem HostFrame.hostBranch {s t : State} {c : Bool} {l : Nat} (h : s.hostBranch c l = .next t) : HostFrame s t := by
  unfold State.hostBranch at h
  split at h
  · exact .hostJump h
  · cases h; exact .hostNext s

/-- Everything a host line leaves alone. -/
theorem HostFrame.runLine {line : HostLine} {s t : State} (h : runLine line s = .next t) : HostFrame s t := by
  cases line <;> simp only [Machine.runLine] at h
  case wr r v => cases h; exact (HostFrame.regWrite s r _).trans (.hostNext _)
  case wb e v => cases h; exact (HostFrame.bufWrite s e _).trans (.hostNext _)
  case rd x r => cases h; exact (HostFrame.regRead s r).trans (.hostAssign _ _ _)
  case rb x e => cases h; exact (HostFrame.bufRead s e).trans (.hostAssign _ _ _)
  case ext x y hi lo => cases h; exact (HostFrame.extract s y hi lo).trans (.hostAssign _ _ _)
  case label => cases h; exact .hostNext s
  case bz => exact .hostBranch h
  case bnz => exact .hostBranch h
  case beq => exact .hostBranch h
  case j => exact .hostJump h
  case halt => cases h; exact .refl s
  case memRead x addr width =>
    split at h
    · cases h; exact (HostFrame.readTarget s _).trans (.hostAssign _ _ _)
    · cases h
  case memWrite addr width v =>
    split at h
    · cases h; exact (HostFrame.writeTarget s _ _).trans (.hostNext _)
    · cases h

theorem HostFrame.hostStep {s t : State} (h : hostStep s = .next t) : HostFrame s t := by
  unfold Machine.hostStep at h
  split at h
  · exact .runLine h
  · cases h; exact .refl s

/-! ### Completion -/

/-- Ending an operation is a completion with that result (60_exceptions.md R276, 10_state.md R50). -/
theorem finish_coreFrame (s : State) (r : ResultState) : CoreFrame s (s.finish r) :=
  ⟨rfl, rfl, rfl, fun _ => rfl, rfl, rfl, rfl, rfl, rfl⟩

@[simp] theorem finish_completesAs (s : State) (r : ResultState) : s.completesAs (s.finish r) r :=
  ⟨rfl, rfl, rfl, finish_coreFrame s r⟩

/-- An operation ends with some result. -/
theorem exec_eq_finish (i : Instr) (s : State) : ∃ r, exec i s = .next (s.finish r) := by
  have h : ∀ x, ∃ r, s.finishTry x = s.finish r := by
    intro x
    cases x with
    | ok r => exact ⟨r, rfl⟩
    | error c => exact ⟨ResultState.empty c, rfl⟩
  cases i
  · obtain ⟨r, hr⟩ := h (encodeOp s.params s.inputLength s.inputSymbol)
    exact ⟨r, by rw [exec, execEncode, hr]⟩
  · obtain ⟨r, hr⟩ := h (decodeOp s.params s.inputLength s.inputSymbol)
    exact ⟨r, by rw [exec, execDecode, hr]⟩

/-- A completion ends with some result (60_exceptions.md R276). -/
theorem complete_eq_finish (s : State) : ∃ r, complete s = .next (s.finish r) := by
  unfold complete
  split
  · exact exec_eq_finish _ s
  · exact ⟨_, rfl⟩

/-- The codes of the exceptions an operation can end with (60_exceptions.md R270, R277). -/
abbrev ResultCode.IsException (c : ResultCode) : Prop := c = .invalidInput ∨ c = .illegalOp ∨ c = .lengthError

theorem encodeOp_cases (s : State) :
    (∃ c, ResultCode.IsException c ∧ encodeOp s.params s.inputLength s.inputSymbol = .error c) ∨
    ∃ d, s.encodable d ∧ encodeOp s.params s.inputLength s.inputSymbol = .ok (encodeResult s.off d) := by
  rcases checkInput_cases s with ⟨-, h⟩ | ⟨-, -, h⟩ | ⟨-, -, -, h⟩ | ⟨d, h1, h2, h3, h⟩
  · exact .inl ⟨.invalidInput, .inl rfl, by simp only [encodeOp, h]⟩
  · exact .inl ⟨.lengthError, .inr (.inr rfl), by simp only [encodeOp, h]⟩
  · exact .inl ⟨.invalidInput, .inl rfl, by simp only [encodeOp, h]⟩
  · by_cases hn : s.params.maxLen < s.inputLength + requiredParityBits s.inputLength
    · exact .inl ⟨.lengthError, .inr (.inr rfl), by simp only [encodeOp, h, hn, ↓reduceIte]⟩
    · have hl : s.inputLength = d.length := h1.1
      have he : s.encodable d := ⟨h1, h2, by rw [hl] at hn; omega⟩
      exact .inr ⟨d, he, he.encodeOp_eq⟩

theorem decodeOp_cases (s : State) :
    (∃ c, ResultCode.IsException c ∧ decodeOp s.params s.inputLength s.inputSymbol = .error c) ∨
    ∃ b, s.decodable b ∧ decodeOp s.params s.inputLength s.inputSymbol = .ok (decodeResult s.off b) := by
  rcases checkInput_cases s with ⟨-, h⟩ | ⟨-, -, h⟩ | ⟨-, -, -, h⟩ | ⟨b, h1, h2, h3, h⟩
  · exact .inl ⟨.invalidInput, .inl rfl, by simp only [decodeOp, h]⟩
  · exact .inl ⟨.lengthError, .inr (.inr rfl), by simp only [decodeOp, h]⟩
  · exact .inl ⟨.invalidInput, .inl rfl, by simp only [decodeOp, h]⟩
  · have he : s.decodable b := ⟨h1, h2, h3⟩
    exact .inr ⟨b, he, he.decodeOp_eq⟩

/-- Everything a completion can write: an empty result state, or the result of the operation on its input
(60_exceptions.md R276). -/
theorem complete_cases (s : State) :
    ∃ r, complete s = .next (s.finish r) ∧
      ((∃ c, ResultCode.IsException c ∧ r = ResultState.empty c) ∨
        (∃ d, s.encodable d ∧ r = encodeResult s.off d) ∨ (∃ b, s.decodable b ∧ r = decodeResult s.off b)) := by
  unfold complete
  split
  · rename_i i _
    cases i
    · rcases encodeOp_cases s with ⟨c, hc, h⟩ | ⟨d, hd, h⟩
      · exact ⟨_, by rw [exec, execEncode, h]; rfl, .inl ⟨c, hc, rfl⟩⟩
      · exact ⟨_, by rw [exec, execEncode, h]; rfl, .inr (.inl ⟨d, hd, rfl⟩)⟩
    · rcases decodeOp_cases s with ⟨c, hc, h⟩ | ⟨b, hb, h⟩
      · exact ⟨_, by rw [exec, execDecode, h]; rfl, .inl ⟨c, hc, rfl⟩⟩
      · exact ⟨_, by rw [exec, execDecode, h]; rfl, .inr (.inr ⟨b, hb, rfl⟩)⟩
  · exact ⟨_, rfl, .inl ⟨.illegalOp, .inr (.inl rfl), rfl⟩⟩

/-- The result a completion writes depends on CTRL.OP, the operands and the parameters alone (60_exceptions.md R276). -/
theorem complete_result_congr {s u : State} (hp : s.params = u.params) (hl : s.inLen = u.inLen)
    (ho : s.ctrlOp = u.ctrlOp) (hs : ∀ k, s.inputSymbol k = u.inputSymbol k) :
    ∃ t v, complete s = .next t ∧ complete u = .next v ∧ t.result = v.result := by
  have hs : s.inputSymbol = u.inputSymbol := funext hs
  have hl : s.inputLength = u.inputLength := congrArg BitVec.toNat hl
  have key : ∀ x, (s.finishTry x).result = (u.finishTry x).result := by intro x; cases x <;> rfl
  unfold complete
  rw [ho]
  cases instrOfOp u.ctrlOp with
  | none => exact ⟨_, _, rfl, rfl, rfl⟩
  | some i => cases i <;> exact ⟨_, _, rfl, rfl, by rw [hp, hl, hs]; exact key _⟩

@[simp] theorem instrOfOp_opOf (i : Instr) : instrOfOp (opOf i) = some i := by cases i <;> decide

/-! ### The step -/

/-- Everything a step can do, agent by agent. -/
theorem step_cases (s : State) :
    (s.resetArrives = true ∧ step s = .next s.takeReset) ∨
    (s.coreMoves ∧ step s = complete s.tick) ∨
    (s.resetArrives = false ∧ (s.busy = true → s.latency ≠ 0 ∧ s.host.ended = false) ∧
      step s = hostStep s.tick.spendLatency) := by
  unfold step State.nextAgent State.coreMoves
  cases hr : s.resetArrives with
  | true => simp
  | false =>
    cases hb : s.busy with
    | false => simp
    | true =>
      by_cases hl : s.latency = 0
      · simp [hl]
      · cases he : s.host.ended <;> simp [hl]

/-- The core's step (60_exceptions.md R276). -/
theorem step_core {s : State} (h : s.coreMoves) : step s = complete s.tick := by
  rcases step_cases s with ⟨a, -⟩ | ⟨-, a⟩ | ⟨-, a, -⟩
  · exact absurd a (by simp [h.1])
  · exact a
  · obtain ⟨h1, h2⟩ := a h.2.1
    rcases h.2.2 with h3 | h3
    · exact absurd h3 h1
    · simp [h2] at h3

/-- The host's step (30_encoding.md R92). -/
theorem host_step {s : State} {line : HostLine} (h : s.hostMoves line) :
    step s = runLine line { s with resets := countdown s.resets, latency := s.latency - 1 } := by
  obtain ⟨h1, h2, h3, h4⟩ := h
  have he : s.host.ended = false := by simp [HostAgent.ended, h3, h4]
  rcases step_cases s with ⟨a, -⟩ | ⟨⟨-, hb, a⟩, -⟩ | ⟨-, -, a⟩
  · simp [h1] at a
  · rcases a with a | a
    · exact absurd a (h2 hb)
    · simp [he] at a
  · rw [a, hostStep]
    have : (s.tick.spendLatency).host.current = some line := h3
    rw [this]; rfl

/-- A label that stands in the program has a line. -/
theorem findIdx?_label {p : List HostLine} {l : Nat} (h : p.contains (.label l) = true) :
    ∃ n, p.findIdx? (· == .label l) = some n ∧ p[n]? = some (.label l) := by
  cases hf : p.findIdx? (· == HostLine.label l) with
  | none =>
    rw [List.findIdx?_eq_none_iff] at hf
    have := List.contains_iff_mem.1 h
    have := hf _ this
    simp at this
  | some n =>
    refine ⟨n, rfl, ?_⟩
    rw [List.findIdx?_eq_some_iff_getElem] at hf
    obtain ⟨h1, h2, -⟩ := hf
    simp at h2
    simp [h1, h2]

theorem run_next {M : Host.Core} {k : Nat} {s t : M.State} (h : M.step s = .next t) : M.run (k + 1) s = M.run k t := by
  simp only [Host.Core.run, h]

end Sys2Proof.Machine
end

