-- ==== Sys2Proof/Laws/AddressMap.lean ====
section
/-! SUPPORT. Laws of the bus address map (20_memory.md R64, R65): the ranges do not meet, an address inside the block
names a target, a well-formed host line has a next state. -/

namespace Sys2Proof.Machine

/-- The place of a buffer's range in Params.ranges. -/
def bufIndex : Buffer → Nat
  | .inBuf => 1
  | .outBuf => 2
  | .origBuf => 3
  | .corrBuf => 4
  | .ptabPos => 5
  | .ptabVal => 6
  | .ptabCnt => 7
  | .logKind => 9
  | .logA => 10
  | .logB => 11
  | .logC => 12

/-- The register space and the windows do not meet (20_memory.md R64). -/
theorem ranges_disjoint {p : Params} (h : p.wf = true) {i j : Nat} {a b : Nat × Nat} (hij : i < j)
    (hi : p.ranges[i]? = some a) (hj : p.ranges[j]? = some b) : a.1 + a.2 ≤ b.1 ∨ b.1 + b.2 ≤ a.1 := by
  simp only [Params.wf, Bool.and_eq_true, decide_eq_true_eq] at h
  obtain ⟨h1, h2⟩ := List.getElem?_eq_some_iff.1 hi
  obtain ⟨h3, h4⟩ := List.getElem?_eq_some_iff.1 hj
  have := List.pairwise_iff_getElem.1 h.2 i j h1 h3 hij
  rw [h2, h4] at this
  simpa [disjointRanges] using this

theorem bufIndex_range (p : Params) (b : Buffer) :
    p.ranges[bufIndex b]? = some (p.windows.ofBuffer b, 4 * p.capacity b) := by
  cases b <;> rfl

theorem other_index {b b' : Buffer} (h : b' ≠ b) : bufIndex b' < bufIndex b ∨ bufIndex b < bufIndex b' := by
  revert h; cases b <;> cases b' <;> decide

/-- A register is found at its offset (10_state.md R24). -/
theorem regAtWord_regOffset (r : Reg) : regAtWord (regOffset r / 4) = some r := by
  cases r with
  | reserved n =>
    have e : regOffset (.reserved n) / 4 = n.val + 12 := by simp [regOffset]; omega
    rw [e]
    simp [regAtWord]
  | _ => rfl

theorem regOffset_lt (r : Reg) : regOffset r < 256 := by
  cases r with
  | reserved n => simp [regOffset]; omega
  | _ => decide

theorem regAtWord_none {w : Nat} (h : 64 ≤ w) : regAtWord w = none := by
  obtain ⟨k, rfl⟩ : ∃ k, w = k + 12 := ⟨w - 12, by omega⟩
  simp [regAtWord]; omega

theorem inRegSpace_none {p : Params} {a : Nat} (h : a < p.base ∨ p.base + 256 ≤ a) : inRegSpace p a = none := by
  unfold inRegSpace
  split
  · rw [regAtWord_none (by omega)]; rfl
  · rfl

theorem windowIndex_some {base size k : Nat} (h : k < size) : windowIndex base size (base + 4 * k) = some k := by
  unfold windowIndex
  rw [if_pos (by simp; omega)]
  congr 1; omega

theorem windowIndex_none {base size a : Nat} (h : a < base ∨ base + 4 * size ≤ a) :
    windowIndex base size a = none := by
  unfold windowIndex
  rw [if_neg (by simp; omega)]

theorem inWindow_none {p : Params} {b : Buffer} {a : Nat}
    (h : a < p.windows.ofBuffer b ∨ p.windows.ofBuffer b + 4 * p.capacity b ≤ a) :
    inWindow p b a = none := by
  unfold inWindow
  rw [windowIndex_none h]; rfl

theorem findBuffer {p : Params} {b : Buffer} {a : Nat} {t : BusTarget}
    (h : inWindow p b a = some t) (ho : ∀ b', b' ≠ b → inWindow p b' a = none) :
    allBuffers.findSome? (fun b => inWindow p b a) = some t := by
  unfold allBuffers
  cases b <;> simp [h, ho]

theorem findBuffer_none {p : Params} {a : Nat} (ho : ∀ b', inWindow p b' a = none) :
    allBuffers.findSome? (fun b => inWindow p b a) = none := by
  simp [allBuffers, ho]

/-- An address inside the block names a register or an element (20_memory.md R64). -/
theorem locate_some {p : Params} {a : Nat} (h : p.holdsAddress a = true) : ∃ t, locate p a = some t := by
  have hw : ∀ b, p.windows.ofBuffer b ≤ a →
      a < p.windows.ofBuffer b + 4 * p.capacity b → ∃ t, locate p a = some t := by
    intro b h1 h2
    cases hl : locate p a with
    | some t => exact ⟨t, rfl⟩
    | none =>
      exfalso
      simp only [locate, Option.or_eq_none_iff] at hl
      have := List.findSome?_eq_none_iff.1 hl.2.1 b (by cases b <;> decide)
      simp [inWindow, windowIndex, h1, h2] at this
  simp only [Params.holdsAddress, Params.ranges, List.any_cons, List.any_nil, Bool.or_false,
    Bool.or_eq_true, Bool.and_eq_true, decide_eq_true_eq] at h
  rcases h with h | h | h | h | h | h | h | h | h | h | h | h | h
  · refine ⟨.reg ((regAtWord ((a - p.base) / 4)).getD .ctrl), ?_⟩
    have : ∀ w, w < 64 → (regAtWord w).isSome := by decide
    have := this ((a - p.base) / 4) (by omega)
    obtain ⟨r, hr⟩ := Option.isSome_iff_exists.1 this
    simp [locate, inRegSpace, h.1, hr]
  · exact hw .inBuf h.1 h.2
  · exact hw .outBuf h.1 h.2
  · exact hw .origBuf h.1 h.2
  · exact hw .corrBuf h.1 h.2
  · exact hw .ptabPos h.1 h.2
  · exact hw .ptabVal h.1 h.2
  · exact hw .ptabCnt h.1 h.2
  · cases hl : locate p a with
    | some t => exact ⟨t, rfl⟩
    | none =>
      exfalso
      simp only [locate, Option.or_eq_none_iff] at hl
      have := hl.2.2
      simp [inAffWindow, windowIndex, h.1, h.2] at this
  · exact hw .logKind h.1 h.2
  · exact hw .logA h.1 h.2
  · exact hw .logB h.1 h.2
  · exact hw .logC h.1 h.2

/-- An admitted access has a target (20_memory.md R65). -/
theorem admitted_target {s : State} {addr width : Nat} (h : s.params.admitted addr width = true) :
    width = 4 ∧ addr % 4 = 0 ∧
      ∃ t, locate s.params addr = some t ∧ busTarget s.params addr width = .ok t := by
  simp only [Params.admitted, Bool.and_eq_true, beq_iff_eq] at h
  obtain ⟨t, ht⟩ := locate_some h.2
  exact ⟨h.1.1, h.1.2, t, ht, by simp [busTarget, h.1, ht]⟩

/-! ### Host lines -/

theorem jump_next {s : State} {l : Nat} (h : s.host.program.contains (.label l) = true) :
    ∃ t, s.hostJump l = .next t := by
  obtain ⟨n, h1, -⟩ := findIdx?_label h
  exact ⟨_, by rw [State.hostJump, h1]⟩

theorem branch_next {s : State} {l : Nat} {c : Bool}
    (h : s.host.program.contains (.label l) = true) :
    ∃ t, s.hostBranch c l = .next t := by
  unfold State.hostBranch
  split
  · exact jump_next h
  · exact ⟨_, rfl⟩

/-- A well-formed host line has a next state. -/
theorem runLine_next {s : State} {line : HostLine} (h : HostLine.wf s.params s.host.program line = true) :
    ∃ t, runLine line s = .next t := by
  cases line <;> simp only [HostLine.wf] at h <;> simp only [runLine]
  case bz => exact branch_next h
  case bnz => exact branch_next h
  case beq => exact branch_next h
  case j => exact jump_next h
  case memRead => obtain ⟨-, -, t, -, hb⟩ := admitted_target h; rw [hb]; exact ⟨_, rfl⟩
  case memWrite => obtain ⟨-, -, t, -, hb⟩ := admitted_target h; rw [hb]; exact ⟨_, rfl⟩
  all_goals exact ⟨_, rfl⟩

theorem hostStep_next {s : State} (h : s.hostWf) : ∃ t, hostStep s = .next t := by
  unfold hostStep
  split
  · rename_i line hl
    apply runLine_next
    simp only [State.hostWf, programWf, Bool.and_eq_true, List.all_eq_true] at h
    exact h.1 _ (List.mem_of_getElem? hl)
  · exact ⟨_, rfl⟩

end Sys2Proof.Machine
end

