-- ==== Sys2Proof/Laws/Invariant.lean ====
section
/-! SUPPORT. Laws for the block's invariant: legal parameters bound every count, and every result fits its buffers
(00_scope.md R8, R12). -/

namespace Sys2Proof.Machine

/-- Legal parameters bound the counts (00_scope.md R8, R12). -/
theorem pMax_le {p : Params} (h : p.wf = true) : p.pMax ≤ 31 ∧ p.maxLen < 2 ^ 31 ∧ 1 ≤ p.maxLen := by
  simp only [Params.wf, Bool.and_eq_true, decide_eq_true_eq] at h
  have h2 : p.maxLen < 2 ^ 31 := by omega
  refine ⟨?_, h2, by omega⟩
  have : Nat.log2 p.maxLen < 31 := (Nat.log2_lt (by omega)).2 h2
  unfold Params.pMax; omega

theorem empty_flags (c : ResultCode) (h : c ≠ .ok ∧ c ≠ .corrected ∧ c ≠ .uncorrectable) :
    (ResultState.empty c).FlagsAgree := by
  constructor <;> simp [ResultState.empty, h]

/-- A successful ENCODE overflows no buffer (00_scope.md R12). -/
theorem encode_fits {s : State} {d : BitString} (h : s.encodable d) : (encodeResult s.off d).Fits s.params := by
  have h1 := h.length_pos
  have h2 := h.2.2
  have hr := two_le_requiredParityBits h1
  have hf := flog2_codeword_length h1
  have hm := flog2_mono (m := d.length + requiredParityBits d.length) (by omega) h2
  have hm2 := flog2_mono (m := d.length) (n := d.length + requiredParityBits d.length) h1 (by omega)
  have hp : s.params.pMax = flog2 s.params.maxLen + 1 := rfl
  rw [encodeResult_eq h1]
  constructor
  all_goals simp [lengthOf, Params.logMax, parityPositions]
  all_goals first | omega | skip
  intro a ha
  have := group_length_le s.off (d.length + requiredParityBits d.length) (2 ^ a) Nat.one_le_two_pow
  omega

/-- A DECODE overflows no buffer (00_scope.md R12). -/
theorem decode_fits {s : State} {b : BitString} (h : s.decodable b) : (decodeResult s.off b).Fits s.params := by
  have h1 := h.length_pos
  have h2 := h.2.2
  have hm := flog2_mono h1 h2
  have hp : s.params.pMax = flog2 s.params.maxLen + 1 := rfl
  have he := errorPosition_lt_twice (off := s.off) h1
  have hd := dataPositions_length h1
  have ha : ∀ a, (group s.off b.length (2 ^ a)).length ≤ s.params.maxLen := fun a => by
    have := group_length_le s.off b.length (2 ^ a) Nat.one_le_two_pow
    omega
  rcases errorPosition_cases s.off b with g | g | ⟨g, g'⟩
  · rw [decodeResult_uncorrectable g]
    constructor
    all_goals simp [lengthOf, Params.logMax, checkTable, checkEvents, checkCount, ha]
    all_goals omega
  · rw [decodeResult_ok g]
    constructor
    all_goals simp [lengthOf, Params.logMax, checkTable, checkEvents, checkCount, ha]
    all_goals omega
  · rw [decodeResult_corrected g g']
    constructor
    all_goals simp [lengthOf, Params.logMax, checkTable, checkEvents, checkCount, ha]
    all_goals omega

theorem finish_inv {s : State} {r : ResultState} (h : s.Inv) (h1 : r.code ≠ .none) (h2 : r.FlagsAgree)
    (h3 : r.Fits s.params) : (s.finish r).Inv :=
  ⟨h.params, h.memory, by simp, by simp, fun _ => h1, h2, h3⟩

end Sys2Proof.Machine
end

