-- ==== Sys2Proof/Laws/PerInstr.lean ====
section
/-! SUPPORT. What holds of every operation as syntax, one lemma per constructor of Instr. -/

namespace Sys2Proof.Laws.CommandWord

/-- The command word of an operation has START set, its OP selects the operation, and its ignored bits are 0
(30_encoding.md R80, R82). -/
def Statement (i : Instr) : Prop :=
  i.wf = true ∧ startField (Sys2Proof.encode i) = true ∧ instrOfOp (opField (Sys2Proof.encode i)) = some i ∧
    Sys2Proof.encode i &&& 0x00000013#32 = Sys2Proof.encode i

theorem encode : Statement .encode := by unfold Statement; decide

theorem decode : Statement .decode := by unfold Statement; decide

end Sys2Proof.Laws.CommandWord
end

