-- ==== Sys2Proof/Tests/Slice0.lean ====
section
/-! SUPPORT. Tests: ill-formed terms the checks refuse, command words written out from 30_encoding.md R82, small vectors
of 95_test_vectors.md, and for every obligation with hypotheses a witness that meets them. -/

namespace Sys2Proof.Tests

open Sys2Proof Sys2Proof.Machine

/-! ### Helpers -/

/-- The example parameters of 95_test_vectors.md section 5 with another MAX_LEN and GROUP_OFFSET. -/
def paramsFor (maxLen : Nat) (g : GroupRule) : Params := { Params.example5 with maxLen := maxLen, groupRule := g }

/-- IN_BUF with the given symbols from element 0 on, 0 elsewhere. -/
def cells (maxLen : Nat) (syms : List Byte) : Memory := (List.range maxLen).map fun k => (k, syms.getD k 0)

/-- An operation in flight on the given symbols, the core to move next. -/
def inFlight (maxLen : Nat) (g : GroupRule) (op : BitVec 2) (syms : List Byte) : State :=
  { State.resetWith (paramsFor maxLen g) 0 with
    ctrlOp := op, busy := true, inLen := BitVec.ofNat 32 syms.length, inBuf := cells maxLen syms }

/-- The block idle with the given symbols. -/
def idle (syms : List Byte) : State := { inFlight 16 .normative 0b00#2 syms with busy := false }

/-- A bit string from a number, position 1 its most significant bit. -/
def bits (len n : Nat) : BitString := (List.range len).map fun k => n.testBit (len - 1 - k)

/-- An operation in flight on a bit string, MAX_LEN = 16. -/
def onBits (g : GroupRule) (op : BitVec 2) (d : BitString) : State := inFlight 16 g op (d.map symbolOfBit)

/-- The host at the first line of a program, the block idle. -/
def hosting (program : List HostLine) : State := (idle []).withProgram program

/-- The next state of an outcome, if there is one. -/
def next? (o : Host.Outcome State Fault Refusal) : Option State :=
  match o with
  | .next t => some t
  | .fault _ => none
  | .refused _ => none

/-- The result state an outcome leaves. -/
def result? (o : Host.Outcome State Fault Refusal) : Option ResultState := (next? o).map State.result

/-- What an outcome refuses. -/
def refusal? (o : Host.Outcome State Fault Refusal) : Option Refusal :=
  match o with
  | .next _ => none
  | .fault _ => none
  | .refused r => some r

theorem of_next? {o : Host.Outcome State Fault Refusal} {t : State} (h : next? o = some t) : o = .next t := by
  cases o <;> simp_all [next?]

/-! ### Well-formedness: each check refuses an ill-formed term -/

theorem test_wf_instr : Instr.encode.wf = true ∧ Instr.decode.wf = true := by decide

theorem test_wf_params_example : Params.example5.wf = true := by decide

theorem test_wf_params_maxLen : (paramsFor 0 .normative).wf = false ∧ (paramsFor (2 ^ 31) .normative).wf = false := by
  decide

theorem test_wf_params_alignment : { Params.example5 with base := 0x10000002 }.wf = false := by decide

theorem test_wf_params_overlap : { Params.example5 with base := 0x10000FFC }.wf = false := by decide

theorem test_wf_line_field :
    HostLine.wf Params.example5 [] (.ext 0 0 6 4) = true ∧ HostLine.wf Params.example5 [] (.ext 0 0 3 4) = false ∧
      HostLine.wf Params.example5 [] (.ext 0 0 32 0) = false := by decide

theorem test_wf_line_label :
    HostLine.wf Params.example5 [.label 1] (.j 1) = true ∧ HostLine.wf Params.example5 [.label 1] (.j 2) = false ∧
      HostLine.wf Params.example5 [] (.bz 0 1 0) = false ∧ HostLine.wf Params.example5 [] (.bnz 0 1 0) = false ∧
      HostLine.wf Params.example5 [] (.beq 0 1 0) = false := by decide

theorem test_wf_line_access :
    HostLine.wf Params.example5 [] (.memRead 0 0x100000FC 4) = true ∧
      HostLine.wf Params.example5 [] (.memRead 0 0x100000FC 2) = false ∧
      HostLine.wf Params.example5 [] (.memRead 0 0x100000FE 4) = false ∧
      HostLine.wf Params.example5 [] (.memRead 0 0x10000100 4) = false ∧
      HostLine.wf Params.example5 [] (.memWrite 0x10001040 4 (.imm 0)) = false := by decide

theorem test_wf_program :
    programWf Params.example5 ([.label 0] ++ startInstr .encode ++ waitDone 1 7) = true ∧
      programWf Params.example5 [.label 0, .label 0] = false ∧ programWf Params.example5 [.halt, .j 3] = false := by
  decide

/-- 20_memory.md R65: a 2-byte read is refused. -/
theorem test_access_refused :
    refusal? (runLine (.memRead 0 0x10000000 2) (hosting [])) = some (.accessNotAdmitted 0x10000000 2) := by decide

theorem test_jump_refused : refusal? (runLine (.j 5) (hosting [])) = some (.undefinedLabel 5) := by decide

/-! ### Decoding, bit by bit (30_encoding.md R82, R87, R90) -/

theorem test_decode_encode_word : decode 0b00000000000000000000000000010001#32 = .ok .encode := by rfl

theorem test_decode_decode_word : decode 0b00000000000000000000000000010010#32 = .ok .decode := by rfl

theorem test_decode_ignored_bits :
    decodeTableWord 32 0b11111111111111111111111111111101 = some .encode ∧
      decodeTableWord 32 0b10000000000000000000000000010110 = some .decode := by decide

theorem test_decode_rejects :
    decodeTableWord 32 0b00000000000000000000000000010000 = none ∧
      decodeTableWord 32 0b00000000000000000000000000010011 = none ∧
      decodeTableWord 32 0b11111111111111111111111111101101 = none := by decide

/-! ### The two operations (95_test_vectors.md V-ENC-4, V-DEC-2, V-DEC; 42_encode.md R160, 44_decode.md R245) -/

theorem test_encode_1011 :
    result? (exec .encode (onBits .normative 0b01#2 (bits 4 0b1011))) =
      some
        { code := .ok, error := false, out := some (bits 7 0b1111011), errPos := 0, orig := none, corr := none
          ptab := [⟨1, [2, 4, 6], true⟩, ⟨2, [2, 5, 6], true⟩, ⟨4, [4, 5, 6], true⟩]
          hdist := 3, detect := 2, correct := 1
          log := [.len 4 3, .placeholder 1, .placeholder 2, .placeholder 4, .parity 1 true, .parity 2 true,
            .parity 4 true] } := by decide

/-- 60_exceptions.md R275: 12 payload bits need 17 positions. -/
theorem test_encode_too_long :
    result? (exec .encode (onBits .normative 0b01#2 (bits 12 0))) = some (ResultState.empty .lengthError) := by decide

theorem test_decode_1111011 :
    result? (exec .decode (onBits .normative 0b10#2 (bits 7 0b1111011))) =
      some
        { code := .corrected, error := false, out := some (bits 4 0b1011), errPos := 1
          orig := some (bits 7 0b1111011), corr := some (bits 7 0b0111011)
          ptab := [⟨1, [2, 4, 6], true⟩, ⟨2, [2, 5, 6], false⟩, ⟨4, [4, 5, 6], false⟩]
          hdist := 0, detect := 0, correct := 0
          log := [.check 1 true, .check 2 false, .check 4 false, .correct 1] } := by decide

theorem test_decode_11 :
    (result? (exec .decode (onBits .normative 0b10#2 (bits 2 0b11)))).map (fun r => (r.code, r.errPos, r.out, r.orig)) =
      some (.uncorrectable, 3, none, some (bits 2 0b11)) := by decide

/-- 60_exceptions.md R276: a bad symbol. -/
theorem test_decode_bad_symbol :
    result? (exec .decode (inFlight 16 .normative 0b10#2 [0x31, 0x32])) =
      some (ResultState.empty .invalidInput) := by decide

/-- 30_encoding.md R81, R92: the host starts an ENCODE. -/
theorem test_host_start :
    (next? (step (hosting [.wr .ctrl (.imm 0x11)]))).map (fun t => (t.ctrlOp, t.busy, t.done, t.host.line)) =
      some (0b01#2, true, false, 1) := by decide

/-- 30_encoding.md R93: EXT r, x, 6, 4 of the STATUS value of an OK result (95_test_vectors.md) gives RESULT = 1. -/
theorem test_ext_result :
    (next? (runLine (.ext 1 0 6 4) ((hosting []).hostAssign 0 0x412#32))).map (fun t => lookupVar t.host.vars 1) =
      some 1#32 := by decide

/-- 30_encoding.md R93: LOADSTR "01". -/
theorem test_loadStr :
    loadStr [0x30, 0x31] =
      [.wr .inLen (.imm 2), .wb (.elem .inBuf 0) (.imm 0x30), .wb (.elem .inBuf 1) (.imm 0x31)] := by decide

/-! ### Witnesses: for every obligation with hypotheses, states and operands that meet them, at the boundaries -/

/-- A DECODE in flight on 1111011. -/
def busyState : State := onBits .normative 0b10#2 (bits 7 0b1111011)

/-- The block DONE after a DECODE with a correction. -/
def doneState : State := (next? (exec .decode busyState)).getD busyState

theorem witness_CtrlWriteEffect :
    busyState.busy = true ∧ (idle []).busy = false ∧ (0xFFFFFFEF#32).getLsbD 4 = false ∧
      (0x00000010#32).getLsbD 4 = true := by decide

theorem witness_CommandTableIsTotal :
    busyState.busy = true ∧ (idle []).busy = false ∧ 0xFFFFFFFD#32 &&& 0x13#32 = 0x11#32 ∧
      0x1E#32 &&& 0x13#32 = 0x12#32 ∧ 0x10#32 &&& 0x13#32 = 0x10#32 ∧ 0xFFFFFFFF#32 &&& 0x13#32 = 0x13#32 ∧
      0xFFFFFFEF#32 &&& 0x13#32 = 0x03#32 ∧ 0x00#32 &&& 0x13#32 = 0x00#32 := by decide

theorem witness_IgnoredCommandBits :
    0xFFFFFFFD#32 &&& 0x13#32 = 0x11#32 &&& 0x13#32 ∧ 0xFFFFFFFD#32 ≠ 0x11#32 := by decide

theorem witness_DecodeEncodeAgree :
    Instr.encode.wf = true ∧ Instr.decode.wf = true ∧ (0x00#32).getLsbD 4 = false ∧ (0x10#32).getLsbD 4 = true ∧
      (0x10#32).extractLsb' 0 2 = 0b00#2 ∧ (0xFFFFFFFF#32).getLsbD 4 = true ∧
      (0xFFFFFFFF#32).extractLsb' 0 2 = 0b11#2 := by decide

theorem witness_StepRunsOperationInFlight :
    ∀ op : BitVec 2, (inFlight 16 .normative op []).coreMoves ∧ (inFlight 16 .normative op []).ctrlOp = op := by
  intro op
  exact ⟨⟨rfl, rfl, .inl rfl⟩, rfl⟩

theorem witness_FetchedCommandRuns :
    decode 0x11#32 = .ok .encode ∧ decode 0xFFFFFFFE#32 = .ok .decode := ⟨rfl, rfl⟩

theorem witness_HostLineRuns :
    (hosting [.wr .inLen (.imm 3)]).hostMoves (.wr .inLen (.imm 3)) ∧
      (hosting [.wr .inLen (.var 0)]).hostMoves (.wr .inLen (.var 0)) ∧
      (hosting [.wb (.elem .inBuf 0) (.var 9)]).hostMoves (.wb (.elem .inBuf 0) (.var 9)) ∧
      (hosting [.wb (.elem .inBuf 15) (.imm 0x31)]).hostMoves (.wb (.elem .inBuf 15) (.imm 0x31)) ∧
      (hosting [.rd 0 .status]).hostMoves (.rd 0 .status) ∧
      { hosting [.rd 0 .outLen] with busy := true, latency := 1 }.hostMoves (.rd 0 .outLen) ∧
      (hosting [.rb 0 (.aff 4 15)]).hostMoves (.rb 0 (.aff 4 15)) := by
  unfold State.hostMoves; decide

theorem witness_HostControlForms :
    (31 ≤ 31 ∧ 31 < 32 ∧ 0 ≤ 31) ∧ ¬(0 ≤ 32 ∧ 32 < 32) ∧ ¬(4 ≤ 3 ∧ 3 < 32) ∧ (hosting [.label 7]).host.program.contains (.label 7) = true := by decide

theorem witness_ReservedOpCompletesIllegal :
    (idle []).busy = false ∧ (0x10#32).getLsbD 4 = true ∧ (0x10#32).extractLsb' 0 2 = 0b00#2 ∧
      (0x13#32).getLsbD 4 = true ∧ (0x13#32).extractLsb' 0 2 = 0b11#2 := by decide

/-- Both operations meet every check of R276: empty, over-long, a bad symbol, a codeword that does not fit, one that
just fits. -/
theorem witness_CompletionChecksInOrder :
    (inFlight 16 .normative 0b11#2 []).busy = true ∧ (inFlight 16 .normative 0b01#2 []).inLen.toNat = 0 ∧
      (16 : Nat) < (onBits .normative 0b10#2 (bits 17 0)).inLen.toNat ∧
      ¬(inFlight 16 .normative 0b10#2 [0x31, 0x2F]).symbolsValid ∧
      (onBits .normative 0b01#2 (bits 12 5)).symbolsValid ∧ (16 : Nat) < 12 + requiredParityBits 12 ∧
      (inFlight 15 .normative 0b01#2 ((bits 11 5).map symbolOfBit)).symbolsValid ∧
      11 + requiredParityBits 11 = 15 := by
  unfold State.symbolsValid; decide

theorem witness_EncodeExceptionsInOrder :
    (inFlight 16 .normative 0b01#2 []).inLen.toNat = 0 ∧
      (16 : Nat) < (onBits .normative 0b01#2 (bits 17 0)).inLen.toNat ∧
      ¬(inFlight 16 .normative 0b01#2 [0x31, 0x32]).symbolsValid ∧
      (onBits .normative 0b01#2 (bits 12 5)).symbolsValid ∧ (16 : Nat) < 12 + requiredParityBits 12 ∧
      (onBits .normative 0b01#2 (bits 11 5)).symbolsValid ∧ 11 + requiredParityBits 11 ≤ 16 := by
  unfold State.symbolsValid; decide

theorem witness_DecodeExceptionsInOrder :
    (inFlight 16 .normative 0b10#2 []).inLen.toNat = 0 ∧
      (16 : Nat) < (onBits .normative 0b10#2 (bits 17 0)).inLen.toNat ∧
      ¬(inFlight 16 .normative 0b10#2 [0x00]).symbolsValid ∧
      (onBits .normative 0b10#2 (bits 16 5)).symbolsValid := by
  unfold State.symbolsValid; decide

theorem witness_ExceptionLeavesNothing :
    ((next? (complete (inFlight 16 .normative 0b01#2 []))).map fun t => t.result.code) = some .invalidInput ∧
      ((next? (complete (inFlight 16 .normative 0b00#2 []))).map fun t => t.result.code) = some .illegalOp ∧
      ((next? (complete (onBits .normative 0b10#2 (bits 17 0)))).map fun t => t.result.code) = some .lengthError := by
  decide

theorem witness_CompletionFlagsAgree : complete busyState = .next doneState := rfl

theorem witness_StatusWordAfterCompletion : complete busyState = .next doneState := rfl

/-- Two states that agree on the operands and differ elsewhere. -/
theorem witness_ResultDependsOnOperandsOnly :
    let s := inFlight 16 .normative 0b01#2 [0x31, 0x30]
    let u := { inFlight 16 .normative 0b10#2 [0x31, 0x30] with inBuf := cells 16 [0x31, 0x30, 0x99], busy := false }
    s.params.groupRule = u.params.groupRule ∧ s.params.maxLen = u.params.maxLen ∧ s.inLen = u.inLen ∧
      (∀ k, k < s.inLen.toNat → s.inputSymbol k = u.inputSymbol k) ∧ s.inBuf ≠ u.inBuf := by decide

theorem witness_ParityPositionsArePowersOfTwo : 1 ≤ 1 ∧ isParityPosition 1 = true ∧ isParityPosition 3 = false := by
  decide

theorem witness_RequiredParityBitsIsLeast : 1 ≤ 1 ∧ requiredParityBits 1 = 2 ∧ 1 + 2 + 1 ≤ 2 ^ 2 := by decide

theorem witness_CodewordPositionCounts : (1 ≤ 1 ∧ requiredParityBits 1 = 2) ∧ (1 ≤ 1 ∧ flog2 1 = 0) := by decide

theorem witness_GroupMembershipLaw :
    (1 ≤ 1 ∧ 1 ≤ 1 ∧ 1 + 1 = 2 ^ 1) ∧ (1 ≤ 2 ∧ 2 ≤ 2 ∧ 2 ∈ group 1 2 (2 ^ 1)) ∧
      ((3 + 1).testBit 2 = true ∧ 3 < 2 ^ 2) ∧ ∀ k, 2 + 1 ≠ 2 ^ k := by
  refine ⟨by decide, by decide, by decide, fun k h => ?_⟩
  have h1 : k = 0 ∨ 2 ∣ 2 ^ k := by
    cases k with
    | zero => exact .inl rfl
    | succ k => exact .inr ⟨2 ^ k, by rw [Nat.pow_succ]; omega⟩
  rcases h1 with rfl | h1 <;> omega

theorem witness_ParityPositionsInGroups : 1 ≤ 1 ∧ 2 ^ 1 ≤ 2 ∧ 2 ∈ group 1 2 1 ∧ 2 ∈ group 1 2 2 := by decide

theorem witness_GroupRuns :
    (3 ∈ group 1 7 2) = False ∧ 6 ∈ group 1 7 2 ∧ (1 ≤ 7 ∧ 7 ≤ 7 ∧ 7 ∈ group 0 7 4) ∧ 2 ^ 2 ≤ 4 := by decide

/-- Payloads on which ENCODE succeeds: the shortest, and one whose codeword just fits MAX_LEN. -/
theorem witness_encodable :
    (onBits .normative 0b01#2 [true]).encodable [true] ∧ (onBits .textbook 0b01#2 [true]).encodable [true] ∧
      (inFlight 15 .normative 0b01#2 ((bits 11 5).map symbolOfBit)).encodable (bits 11 5) := by
  unfold State.encodable State.hasInput; decide

theorem witness_EncodeWritesItsResult : (onBits .normative 0b01#2 (bits 4 0b1011)).encodable (bits 4 0b1011) := by
  unfold State.encodable State.hasInput; decide

theorem witness_EncodeParityOrder : (onBits .textbook 0b01#2 (bits 4 0b1011)).encodable (bits 4 0b1011) := by
  unfold State.encodable State.hasInput; decide

theorem witness_EncodeParityClosedForm :
    (onBits .normative 0b01#2 [true]).encodable [true] ∧
      (onBits .normative 0b01#2 [true]).params.groupRule = .normative ∧ 1 < requiredParityBits [true].length := by
  unfold State.encodable State.hasInput; decide

theorem witness_RecheckedCodeword :
    (onBits .normative 0b01#2 [true]).encodable [true] ∧
      (onBits .normative 0b01#2 [true]).params.groupRule = .normative ∧
      (onBits .textbook 0b01#2 [true]).encodable [true] ∧
      (onBits .textbook 0b01#2 [true]).params.groupRule = .textbook := by
  unfold State.encodable State.hasInput; decide

/-- Two payloads that differ at position 3, which lies in no group. -/
theorem witness_UncoveredPayloadBits :
    let s := onBits .normative 0b01#2 [true]
    let u := onBits .normative 0b01#2 [false]
    s.encodable [true] ∧ u.encodable [false] ∧ s.params.groupRule = .normative ∧ u.params.groupRule = .normative ∧
      ∀ k, k < 1 → (∀ q, (dataPositions (1 + requiredParityBits 1))[k]? ≠ some (2 ^ q - 1)) →
        [true][k]? = [false][k]? := by
  refine ⟨?_, ?_, rfl, rfl, fun k hk h => ?_⟩
  · unfold State.encodable State.hasInput; decide
  · unfold State.encodable State.hasInput; decide
  · obtain rfl : k = 0 := by omega
    exact absurd (by decide) (h 2)

theorem witness_EncodeMetrics :
    (onBits .normative 0b01#2 [true]).encodable [true] ∧ 2 ^ 0 ≤ [true].length ∧ [true].length < 2 ^ (0 + 1) ∧
      (onBits .normative 0b01#2 (bits 8 1)).encodable (bits 8 1) ∧ 2 ^ 3 ≤ (bits 8 1).length ∧
      (bits 8 1).length < 2 ^ (3 + 1) := by
  unfold State.encodable State.hasInput; decide

theorem witness_EncodeRegisters : (onBits .normative 0b01#2 (bits 11 9)).encodable (bits 11 9) := by
  unfold State.encodable State.hasInput; decide

/-- Received strings with each of DECODE's three results. -/
theorem witness_DecodeWritesItsResult :
    (onBits .normative 0b10#2 [true]).decodable [true] ∧ 2 ^ 0 ≤ [true].length ∧ [true].length < 2 ^ (0 + 1) ∧
      (onBits .normative 0b10#2 (bits 2 3)).decodable (bits 2 3) ∧ 2 ^ 1 ≤ (bits 2 3).length ∧
      (bits 2 3).length < 2 ^ (1 + 1) ∧
      (onBits .normative 0b10#2 (bits 16 1)).decodable (bits 16 1) ∧ 2 ^ 4 ≤ (bits 16 1).length ∧
      (bits 16 1).length < 2 ^ (4 + 1) := by
  unfold State.decodable State.hasInput; decide

theorem witness_ErrorPositionDigits : (onBits .normative 0b10#2 (bits 16 1)).decodable (bits 16 1) := by
  unfold State.decodable State.hasInput; decide

theorem witness_ErrorPositionBounds :
    (onBits .normative 0b10#2 (bits 7 1)).decodable (bits 7 1) ∧
      (bits 7 1).length = 2 ^ (flog2 (bits 7 1).length + 1) - 1 ∧
      (onBits .normative 0b10#2 (bits 7 1)).params.maxLen ≤ 2 ^ 31 - 1 := by
  unfold State.decodable State.hasInput; decide

theorem witness_DecodeRegisters : (onBits .textbook 0b10#2 (bits 16 1)).decodable (bits 16 1) := by
  unfold State.decodable State.hasInput; decide

/-- A correction at parity position 1, and one at data position 3, the last of its string. -/
theorem witness_CorrectionAndPayload :
    (onBits .normative 0b10#2 (bits 7 0b1111011)).decodable (bits 7 0b1111011) ∧
      ((result? (exec .decode (onBits .normative 0b10#2 (bits 7 0b1111011)))).map ResultState.errPos) = some 1 ∧
      isParityPosition 1 = true ∧ (onBits .normative 0b10#2 (bits 3 7)).decodable (bits 3 7) ∧
      ((result? (exec .decode (onBits .normative 0b10#2 (bits 3 7)))).map ResultState.errPos) = some 3 ∧
      isParityPosition 3 = false := by
  unfold State.decodable State.hasInput; decide

/-- A codeword with error position 1 (95_test_vectors.md V-DEC-2) and one with 0. -/
theorem witness_RoundTripRecoversPayload :
    let s := onBits .normative 0b01#2 (bits 4 0b1011)
    let u := onBits .normative 0b10#2 (bits 7 0b1111011)
    let s' := onBits .normative 0b01#2 [false]
    let u' := onBits .normative 0b10#2 (bits 3 0)
    (s.encodable (bits 4 0b1011) ∧ s.params.groupRule = .normative ∧
      ((result? (exec .encode s)).map ResultState.out) = some (some (bits 7 0b1111011)) ∧ u.params = s.params ∧
      u.hasInput (bits 7 0b1111011) ∧ ((result? (exec .decode u)).map ResultState.errPos) = some 1) ∧
    (s'.encodable [false] ∧ ((result? (exec .encode s')).map ResultState.out) = some (some (bits 3 0)) ∧
      u'.params = s'.params ∧ u'.hasInput (bits 3 0) ∧
      ((result? (exec .decode u')).map ResultState.errPos) = some 0) := by
  unfold State.encodable State.hasInput; decide

/-- Flips at the first and the last position of 1111011, and at a position that is located. -/
theorem witness_SingleFlipLaw :
    let s := onBits .normative 0b01#2 (bits 4 0b1011)
    s.encodable (bits 4 0b1011) ∧ s.params.groupRule = .normative ∧
      ((result? (exec .encode s)).map ResultState.out) = some (some (bits 7 0b1111011)) ∧
      (onBits .normative 0b10#2 (bits 7 0b1111011)).hasInput (bits 7 0b1111011) ∧
      (∀ j, j ∈ [1, 5, 6, 7] →
        (onBits .normative 0b10#2 (flipBit (bits 7 0b1111011) j)).hasInput (flipBit (bits 7 0b1111011) j) ∧
        (onBits .normative 0b10#2 (flipBit (bits 7 0b1111011) j)).params = s.params) ∧
      ((result? (exec .decode (onBits .normative 0b10#2 (flipBit (bits 7 0b1111011) 6)))).map
        ResultState.errPos) = some 6 := by
  unfold State.encodable State.hasInput; decide

/-- 0110011 (95_test_vectors.md section 4), fresh and with its first and last bit flipped. -/
theorem witness_TextbookCodeCorrectsEverySingleFlip :
    let s := onBits .textbook 0b01#2 (bits 4 0b1011)
    s.encodable (bits 4 0b1011) ∧ s.params.groupRule = .textbook ∧
      ((result? (exec .encode s)).map ResultState.out) = some (some (bits 7 0b0110011)) ∧
      (onBits .textbook 0b10#2 (bits 7 0b0110011)).hasInput (bits 7 0b0110011) ∧
      (∀ j, j ∈ [1, 7] →
        (onBits .textbook 0b10#2 (flipBit (bits 7 0b0110011) j)).hasInput (flipBit (bits 7 0b0110011) j) ∧
        (onBits .textbook 0b10#2 (flipBit (bits 7 0b0110011) j)).params = s.params) := by
  unfold State.encodable State.hasInput; decide

theorem witness_ReadOnlyWritesIgnored :
    Reg.status ≠ .ctrl ∧ Reg.reserved 51 ≠ .inLen ∧ (∀ k, ElemRef.elem .outBuf 0 ≠ .elem .inBuf k) ∧
      (idle []).params.maxLen ≤ 16 := by
  refine ⟨by decide, by decide, fun k => by simp, by decide⟩

/-- While busy a host line runs, and leaves the block busy. -/
theorem witness_BusyLocksOperands :
    busyState.busy = true ∧
      ((next? (runLine (.wr .ctrl (.imm 0x11)) busyState)).map fun t => t.busy) = some true := by decide

theorem witness_BusyReads : busyState.busy = true ∧ 15 < busyState.params.maxLen ∧
    (∀ k, ElemRef.aff 0 0 ≠ .elem .inBuf k) ∧ Reg.errPos ∈ [Reg.outLen, .npar, .hdist, .detect, .correct, .errPos] := by
  refine ⟨rfl, by decide, fun k => by simp, by decide⟩

theorem witness_BusyStatusReservedBits : busyState.busy = true ∧ (12 ≤ 12 ∧ 12 ≤ 31) := by decide

theorem witness_InBufReadsBackWhatWasWritten :
    (idle [0x30]).busy = false ∧ Memory.wf (idle [0x30]).params.maxLen (idle [0x30]).inBuf ∧
      15 < (idle [0x30]).params.maxLen ∧ 0 ≠ 15 := by decide

theorem witness_InputWritesLeaveResults :
    doneState.busy = false ∧ Reg.outLen ≠ .inLen ∧ ∀ j, ElemRef.elem .outBuf 0 ≠ .elem .inBuf j := by
  refine ⟨rfl, by decide, fun j => by simp⟩

/-- The state after a correction meets the invariant. -/
theorem doneState_inv : doneState.Inv := by
  refine ⟨by decide, by decide, by decide, by decide, by decide, ⟨by decide, by decide, by decide, by decide⟩, ?_⟩
  exact ⟨by decide, by decide, by decide, by decide, by decide, by decide, by decide, by decide, by decide, by decide,
    by decide⟩

/-- Elements at the end of each valid range: of the strings, the table, a group, the log. -/
theorem witness_ResultBuffersHoldTheResult :
    doneState.Inv ∧ doneState.busy = false ∧ (doneState.result.out.getD [])[3]? = some true ∧
      (doneState.result.orig.getD [])[6]? = some true ∧ (doneState.result.corr.getD [])[6]? = some true ∧
      (doneState.result.ptab[2]?).map (fun e => e.affectedPositions[2]?) = some (some 6) ∧
      doneState.result.log[3]? = some (.correct 1) := by
  refine ⟨doneState_inv, rfl, by decide, by decide, by decide, by decide, by decide⟩

theorem witness_RegistersReadExactCounts : doneState.Inv ∧ doneState.busy = false := ⟨doneState_inv, rfl⟩

theorem witness_AddressMap :
    Params.example5.wf = true ∧ 15 < Params.example5.capacity .inBuf ∧ 4 < Params.example5.pMax ∧
      15 < Params.example5.maxLen ∧ Params.example5.holdsAddress 0x10000100 = false ∧
      Params.example5.holdsAddress 0x10001040 = false := by decide

theorem witness_BusAccessAdmission :
    Params.example5.admitted 0x100000FC 4 = true ∧ Params.example5.admitted 0x10001000 4 = true ∧
      Params.example5.admitted 0x10000100 4 = false ∧ Params.example5.admitted 0x10000004 2 = false ∧
      Params.example5.admitted 0x10000006 4 = false := by decide

theorem witness_RegisterReadBack : (idle []).busy = false := rfl

theorem witness_ResultPersists :
    (∃ t, step doneState = .next t) ∧ doneState.resetArrives = false ∧ doneState.busy = false ∧
      (0x11#32).getLsbD 4 = true := ⟨⟨_, rfl⟩, rfl, rfl, rfl⟩

/-- A reset that arrives while an operation is in flight. -/
theorem witness_ResetSetsEverything :
    { busyState with resets := [0, 5] }.resetArrives = true ∧
      elemExists busyState.params (.elem .inBuf 15) = true ∧ elemExists busyState.params (.aff 4 15) = true ∧
      elemExists busyState.params (.elem .logC 10) = true := by decide

theorem witness_ResetMeetsInvariant :
    (paramsFor 1 .normative).wf = true ∧ (paramsFor 16 .textbook).wf = true := by decide

/-- A completion from a busy state that meets the invariant. -/
theorem busyState_inv : busyState.Inv := by
  refine ⟨by decide, by decide, by decide, by decide, by decide, ⟨by decide, by decide, by decide, by decide⟩, ?_⟩
  exact ⟨by decide, by decide, by decide, by decide, by decide, by decide, by decide, by decide, by decide, by decide,
    by decide⟩

theorem witness_StepKeepsInvariant : busyState.Inv ∧ ∃ t, step busyState = .next t := ⟨busyState_inv, _, rfl⟩

theorem witness_StepAlwaysGoesOn : (hosting ([.label 0] ++ startInstr .decode ++ waitDone 1 7)).hostWf := by
  unfold State.hostWf; decide

theorem witness_EveryStartCompletes :
    let s := { hosting [.rd 0 .status, .rd 0 .status, .rd 0 .status] with busy := true, ctrlOp := 0b10#2, latency := 2 }
    let s' := { s with ctrlOp := 0b11#2, latency := 0 }
    (s.busy = true ∧ s.resets = [] ∧ s.hostWf ∧ s.ctrlOp = opOf .decode ∧ s.latency = 2) ∧
      (s'.busy = true ∧ s'.resets = [] ∧ s'.hostWf ∧ s'.latency = 0) := by
  unfold State.hostWf; decide

theorem witness_BlocksShareNothing : ∃ q, Platform.stepAt [busyState, idle []] 0 = some q := ⟨_, rfl⟩

end Sys2Proof.Tests
end

/-! PROOFS. The invariant of the block is kept by every step, and under it the result registers read exact counts
(00_scope.md R10, R12; 10_state.md R27, R46, R47). -/

namespace Sys2Proof.Machine

/-! ### Results that a completion can write -/

/-- Empty(code) overflows no buffer (10_state.md R46). -/
theorem empty_fits {p : Params} (h : p.wf = true) (c : ResultCode) : (ResultState.empty c).Fits p := by
  have hpos : 0 < p.maxLen := (pMax_le h).2.2
  constructor <;> simp [ResultState.empty, lengthOf, hpos]

/-- The flags of a successful ENCODE (42_encode.md R172). -/
theorem encodeResult_flags (off : Nat) (d : BitString) : (encodeResult off d).FlagsAgree := by
  constructor <;> simp [encodeResult]

/-- The flags of each of the three results of a DECODE (44_decode.md R227, R231, R232). -/
theorem decodeResult_flags (off : Nat) (b : BitString) : (decodeResult off b).FlagsAgree := by
  rcases errorPosition_cases off b with h | h | ⟨h0, h⟩
  · rw [decodeResult_uncorrectable h]; constructor <;> simp
  · rw [decodeResult_ok h]; constructor <;> simp
  · rw [decodeResult_corrected h0 h]; constructor <;> simp

theorem ResultCode.IsException.not_none {c : ResultCode} (h : c.IsException) : c ≠ .none := by
  rcases h with rfl | rfl | rfl <;> decide

theorem ResultCode.IsException.not_success {c : ResultCode} (h : c.IsException) :
    c ≠ .ok ∧ c ≠ .corrected ∧ c ≠ .uncorrectable := by
  rcases h with rfl | rfl | rfl <;> decide

theorem decodeResult_code_ne_none (off : Nat) (b : BitString) : (decodeResult off b).code ≠ .none := by
  rcases decodeResult_code off b with h | h | h <;> simp [h]

/-! ### The agents keep the invariant -/

/-- The invariant says nothing of the schedule and the host agent, which are no state of the block. -/
theorem State.Inv.withSchedule {s : State} (h : s.Inv) (resets : List Nat) (latency : Nat) (host : HostAgent) :
    { s with resets := resets, latency := latency, host := host }.Inv :=
  ⟨h.params, h.memory, h.phase, h.idle, h.doneCode, h.flags, h.fits⟩

theorem State.Inv.tick {s : State} (h : s.Inv) : s.tick.Inv := h.withSchedule _ _ _

theorem State.Inv.spendLatency {s : State} (h : s.Inv) : s.spendLatency.Inv := h.withSchedule _ _ _

/-- The state after reset, whatever the legal parameters and the reset's draw (10_state.md R48). -/
theorem resetWith_inv {p : Params} (h : p.wf = true) (n : Nat) : (State.resetWith p n).Inv where
  params := h
  memory := Memory.fresh_wf _ _
  phase := by simp [State.resetWith]
  idle _ _ := rfl
  doneCode := by simp [State.resetWith]
  flags := empty_flags .none (by decide)
  fits := empty_fits h .none

theorem State.Inv.takeReset {s : State} (h : s.Inv) : s.takeReset.Inv :=
  (resetWith_inv h.params s.draws).withSchedule _ _ _

/-- A completion writes Empty(code) or the result of an operation that passed its checks, and each of them meets the
invariant (60_exceptions.md R276). -/
theorem State.Inv.complete {s t : State} (h : s.Inv) (hc : complete s = .next t) : t.Inv := by
  obtain ⟨r, hr, hcases⟩ := complete_cases s
  obtain rfl : s.finish r = t := by rw [hr] at hc; injection hc
  rcases hcases with ⟨c, hexc, rfl⟩ | ⟨d, hd, rfl⟩ | ⟨b, hb, rfl⟩
  · exact finish_inv h hexc.not_none (empty_flags c hexc.not_success) (empty_fits h.params c)
  · exact finish_inv h (by simp [encodeResult]) (encodeResult_flags _ d) (encode_fits hd)
  · exact finish_inv h (decodeResult_code_ne_none _ b) (decodeResult_flags _ b) (decode_fits hb)

/-- A host step that leaves the block not busy found it so, and left DONE alone. -/
theorem HostFrame.before_of_not_busy {s t : State} (f : HostFrame s t) (hb : t.busy = false) :
    s.busy = false ∧ t.done = s.done := by
  cases hs : s.busy with
  | true => simp [(f.locked hs).1] at hb
  | false =>
    rcases f.phase hs with ⟨-, hd⟩ | ⟨ht, -⟩
    · exact ⟨rfl, hd⟩
    · simp [ht] at hb

/-- No host step sets DONE, and one that leaves it set leaves BUSY alone. -/
theorem HostFrame.before_of_done {s t : State} (f : HostFrame s t) (hd : t.done = true) :
    s.done = true ∧ t.busy = s.busy := by
  cases hs : s.busy with
  | true =>
    obtain ⟨hb, hdone, -⟩ := f.locked hs
    exact ⟨hdone ▸ hd, hb⟩
  | false =>
    rcases f.phase hs with ⟨hb, hdone⟩ | ⟨-, hdone⟩
    · exact ⟨hdone ▸ hd, hb⟩
    · simp [hdone] at hd

/-- Every host step keeps the invariant: it keeps the parameters, the result and the form of IN_BUF, and changes the
phase by a START alone. -/
theorem HostFrame.inv {s t : State} (f : HostFrame s t) (h : s.Inv) : t.Inv where
  params := by rw [f.params]; exact h.params
  memory := f.memory h.memory
  phase := by
    rintro ⟨hb, hd⟩
    obtain ⟨hd', hbusy⟩ := f.before_of_done hd
    exact h.phase ⟨hbusy ▸ hb, hd'⟩
  idle hb hd := by
    obtain ⟨hb', hdone⟩ := f.before_of_not_busy hb
    rw [f.result]
    exact h.idle hb' (hdone ▸ hd)
  doneCode hd := by rw [f.result]; exact h.doneCode (f.before_of_done hd).1
  flags := by rw [f.result]; exact h.flags
  fits := by rw [f.result, f.params]; exact h.fits

/-- Settles O56: a reset, a completion and a host step each keep the invariant, and a step is one of them. -/
theorem stepKeepsInvariant : Obligations.StepKeepsInvariant := by
  unfold Obligations.StepKeepsInvariant
  intro s t h hstep
  rcases step_cases s with ⟨-, hreset⟩ | ⟨-, hcore⟩ | ⟨-, -, hhost⟩
  · obtain rfl : s.takeReset = t := by rw [hreset] at hstep; injection hstep
    exact h.takeReset
  · exact h.tick.complete (hcore ▸ hstep)
  · exact (HostFrame.hostStep (hhost ▸ hstep)).inv h.tick.spendLatency

/-! ### Counts read through registers -/

/-- A register that holds a count reads it exactly while not busy, if the count fits W bits (00_scope.md R10). -/
theorem regRead_toNat_of_count {s : State} {r : Reg} {n : Nat} (hb : s.busy = false)
    (hr : s.regValue r = Word.ofCount n) (hn : n < 2 ^ 32) : (s.regRead r).1.toNat = n := by
  rw [regRead_idle hb, hr, BitVec.toNat_ofNat, Nat.mod_eq_of_lt hn]

/-- Settles O49: legal parameters bound every capacity below 2^32 (R8, R12), and every count of a result lies within
its capacity. -/
theorem registersReadExactCounts : Obligations.RegistersReadExactCounts := by
  unfold Obligations.RegistersReadExactCounts
  intro s h hb
  obtain ⟨hpMax, hmaxLen, -⟩ := pMax_le h.params
  have hlogMax : s.params.logMax = 2 * s.params.pMax + 1 := rfl
  obtain ⟨hout, horig, -, herrPos, -, htable, -, hevents, hhdist, hdetect, hcorrect⟩ := h.fits
  refine ⟨?_, ?_, ?_, ?_, ?_, ?_, ?_, ?_, ?_⟩ <;>
    exact regRead_toNat_of_count hb rfl (by omega)

end Sys2Proof.Machine

/-! PROOFS. The state's own statements (10_state.md): what a completion writes and keeps, the STATUS word and the other
registers a host reads after it, what writes of the inputs leave alone, and the registers that read alike in every
state. -/

namespace Sys2Proof.Machine

/-! ### Completion, frame and reset -/

/-- Settles O10: an operation and a completion each end in State.finish, which writes STATUS and the result alone. -/
theorem operationsCompleteAndKeepInputs : Obligations.OperationsCompleteAndKeepInputs := by
  unfold Obligations.OperationsCompleteAndKeepInputs
  constructor
  · intro i s
    obtain ⟨r, hr⟩ := exec_eq_finish i s
    exact ⟨_, hr, rfl, rfl, finish_coreFrame s r⟩
  · intro s
    obtain ⟨r, hr⟩ := complete_eq_finish s
    exact ⟨_, hr, rfl, rfl, finish_coreFrame s r⟩

theorem example5_wf : Params.example5.wf = true := by decide

/-- Settles O55: the reset state under the example parameters is one of those under legal parameters. -/
theorem resetMeetsInvariant : Obligations.ResetMeetsInvariant := by
  unfold Obligations.ResetMeetsInvariant
  exact ⟨resetWith_inv example5_wf 0, fun _ n h => resetWith_inv h n⟩

/-! ### The flags and STATUS after a completion -/

/-- A completion writes a result with a code, whose flags agree with that code, in any state (10_state.md R47). -/
theorem complete_flags {s t : State} (h : complete s = .next t) :
    ∃ r, t = s.finish r ∧ r.code ≠ .none ∧ r.FlagsAgree := by
  obtain ⟨r, hr, hcases⟩ := complete_cases s
  obtain rfl : s.finish r = t := by rw [hr] at h; injection h
  refine ⟨r, rfl, ?_⟩
  rcases hcases with ⟨c, hexc, rfl⟩ | ⟨d, -, rfl⟩ | ⟨b, -, rfl⟩
  · exact ⟨hexc.not_none, empty_flags c hexc.not_success⟩
  · exact ⟨by simp [encodeResult], encodeResult_flags _ d⟩
  · exact ⟨decodeResult_code_ne_none _ b, decodeResult_flags _ b⟩

/-- Settles O16: the relations hold of Empty(code), of ENCODE's result and of DECODE's three results. -/
theorem completionFlagsAgree : Obligations.CompletionFlagsAgree := by
  unfold Obligations.CompletionFlagsAgree
  intro s t h
  obtain ⟨r, rfl, -, hflags⟩ := complete_flags h
  exact ⟨hflags.error, hflags.edValid, hflags.corrValid, hflags.outValid⟩

/-- STATUS with DONE = 1 and the flags that R47 gives the result code (10_state.md R26, R44; 30_encoding.md R86). -/
def doneStatus : ResultCode → Word
  | .none => 0x00000002#32
  | .ok => 0x00000412#32
  | .corrected => 0x00000E22#32
  | .uncorrectable => 0x00000332#32
  | .invalidInput => 0x00000042#32
  | .illegalOp => 0x00000052#32
  | .lengthError => 0x00000062#32

/-- Flags that agree with the code make STATUS a function of the code. -/
theorem ResultState.FlagsAgree.statusWord_done {r : ResultState} (h : r.FlagsAgree) :
    statusWord false true r = doneStatus r.code := by
  have herror : r.error = decide (r.code = .uncorrectable) := by
    rw [Bool.eq_iff_iff, decide_eq_true_iff]; exact h.error
  have hed : r.edValid = decide (r.code = .corrected ∨ r.code = .uncorrectable) := by
    rw [Bool.eq_iff_iff, decide_eq_true_iff]; exact h.edValid
  have hcorr : r.corrValid = decide (r.code = .corrected) := by
    rw [Bool.eq_iff_iff, decide_eq_true_iff]; exact h.corrValid
  have hout : r.outValid = decide (r.code = .ok ∨ r.code = .corrected) := by
    rw [Bool.eq_iff_iff, decide_eq_true_iff]; exact h.outValid
  unfold statusWord
  rw [herror, hed, hcorr, hout]
  cases r.code <;> decide

/-- From the completion on a register reads what it holds (20_memory.md R69; log 22). -/
theorem finish_regRead (s : State) (r : ResultState) (g : Reg) :
    ((s.finish r).regRead g).1 = (s.finish r).regValue g := by
  rw [regRead_idle (State.finish_busy s r)]

/-- STATUS after a completion whose flags agree with its code. -/
theorem finish_status (s : State) {r : ResultState} (h : r.FlagsAgree) :
    ((s.finish r).regRead .status).1 = doneStatus r.code := by
  rw [finish_regRead]
  exact h.statusWord_done

/-- Settles O17: STATUS is the word of the code, and a completion never leaves the code NONE. -/
theorem statusWordAfterCompletion : Obligations.StatusWordAfterCompletion := by
  unfold Obligations.StatusWordAfterCompletion
  intro s t h
  obtain ⟨r, rfl, hcode, hflags⟩ := complete_flags h
  rw [finish_status s hflags, State.finish_result]
  cases hc : r.code
  case none => exact absurd hc hcode
  all_goals simp [doneStatus]

/-! ### What a host reads after ENCODE and DECODE -/

/-- A valid element within capacity reads its value while not busy (10_state.md R39 to R43). -/
theorem bufRead_valid {s : State} {e : ElemRef} {v : Word} (hb : s.busy = false)
    (hcap : elemExists s.params e = true) (hv : s.result.elem e = some v) : s.bufRead e = (v, s) := by
  have hres : ∀ k, e ≠ .elem .inBuf k := by
    rintro k rfl
    cases hv
  simp [State.bufRead, hcap, readElem_result hres, hb, State.readResultElem, hv]

/-- The symbol of a bit as a host reads it (30_encoding.md R85, 20_memory.md R61). -/
theorem setWidth_symbolOfBit (b : Bit) : (symbolOfBit b).setWidth 32 = if b then 0x31#32 else 0x30#32 := by
  cases b <;> rfl

/-- Element k of a string buffer is the symbol of position k + 1 (10_state.md R39 to R41, 30_encoding.md R85). -/
theorem stringElem_eq_bitAt {c : BitString} {k : Nat} (h : k < c.length) :
    stringElem (some c) k = some (if bitAt c (k + 1) then 0x31#32 else 0x30#32) := by
  simp [stringElem, bitAt, h, setWidth_symbolOfBit]

/-- The counts of a successful ENCODE's result (42_encode.md R167, R172, R178). -/
theorem encodeResult_counts (off : Nat) {d : BitString} (hd : 1 ≤ d.length) :
    lengthOf (encodeResult off d).out = d.length + requiredParityBits d.length ∧
    (encodeResult off d).ptab.length = requiredParityBits d.length ∧
    (encodeResult off d).log.length = 2 * requiredParityBits d.length + 1 := by
  rw [encodeResult_eq hd]
  refine ⟨codewordOf_length off d, by simp, ?_⟩
  simp only [parityPositions, List.length_cons, List.length_append, List.length_map, List.length_range]
  omega

/-- Settles O32: STATUS follows from R47, the counts and OUT_BUF from the closed form of ENCODE's result. -/
theorem encodeRegisters : Obligations.EncodeRegisters := by
  unfold Obligations.EncodeRegisters
  intro s d h
  obtain ⟨hout, hnpar, hlog⟩ := encodeResult_counts s.off h.length_pos
  have hcw : (encodeResult s.off d).out = some (codewordOf s.off d) := by rw [encodeResult_eq h.length_pos]
  refine ⟨_, codewordOf s.off d, h.execEncode_eq, hcw, finish_status s (encodeResult_flags s.off d), ?_⟩
  simp only [finish_regRead]
  refine ⟨rfl, congrArg Word.ofCount hout, congrArg Word.ofCount hnpar, congrArg Word.ofCount hlog, rfl, rfl,
    fun k hk => ?_⟩
  have hcap : elemExists s.params (.elem .outBuf k) = true := decide_eq_true (Nat.lt_of_lt_of_le hk h.2.2)
  have helem := stringElem_eq_bitAt (c := codewordOf s.off d) (by simpa using hk)
  rw [← hcw] at helem
  rw [bufRead_valid (s := s.finish (encodeResult s.off d)) rfl hcap helem]

/-- The counts of a DECODE's result, whichever of the three it is (44_decode.md R236, R244, R250). -/
theorem decodeResult_counts (off : Nat) {b : BitString} (hb : 1 ≤ b.length) :
    (decodeResult off b).ptab.length = flog2 b.length + 1 ∧
    (decodeResult off b).hdist = 0 ∧ (decodeResult off b).detect = 0 ∧ (decodeResult off b).correct = 0 ∧
    (decodeResult off b).log.length = flog2 b.length + 1 + (if errorPosition off b = 0 then 0 else 1) ∧
    lengthOf (decodeResult off b).orig = (if errorPosition off b = 0 then 0 else b.length) ∧
    lengthOf (decodeResult off b).out =
      if (decodeResult off b).code = .uncorrectable then 0 else b.length - flog2 b.length - 1 := by
  have hdata := dataPositions_length hb
  rcases errorPosition_cases off b with h | h | ⟨h0, h⟩
  · have h0 : errorPosition off b ≠ 0 := by omega
    simp [decodeResult_uncorrectable h, checkTable, checkEvents, checkCount, lengthOf, h0]
  · simp [decodeResult_ok h, checkTable, checkEvents, checkCount, lengthOf, h, hdata]
  · simp [decodeResult_corrected h0 h, checkTable, checkEvents, checkCount, lengthOf, h0, hdata]

/-- Settles O36: the registers are the counts of DECODE's result. -/
theorem decodeRegisters : Obligations.DecodeRegisters := by
  unfold Obligations.DecodeRegisters
  intro s b h
  obtain ⟨hnpar, hhdist, hdetect, hcorrect, hlog, horig, hout⟩ := decodeResult_counts s.off h.length_pos
  refine ⟨_, h.execDecode_eq, ?_⟩
  simp only [finish_regRead, State.finish_result, decodeResult_errPos]
  exact ⟨congrArg Word.ofCount hnpar, congrArg Word.ofCount (decodeResult_errPos s.off b),
    congrArg Word.ofCount hhdist, congrArg Word.ofCount hdetect, congrArg Word.ofCount hcorrect,
    congrArg Word.ofCount hlog, congrArg Word.ofCount horig, congrArg Word.ofCount hout⟩

/-! ### Writes of the inputs -/

/-- A write of IN_BUF changes IN_BUF alone (20_memory.md R63). -/
theorem bufWrite_eq_inBuf (s : State) (e : ElemRef) (v : Word) : ∃ m, s.bufWrite e v = { s with inBuf := m } := by
  rcases bufWrite_cases s e v with h | ⟨k, -, -, -, h⟩
  · exact ⟨s.inBuf, h⟩
  · exact ⟨_, h⟩

/-- While not busy a write of IN_LEN changes IN_LEN alone (10_state.md R28). -/
theorem regWrite_inLen {s : State} (hb : s.busy = false) (v : Word) : s.regWrite .inLen v = { s with inLen := v } := by
  simp [State.regWrite, hb]

/-- No register but IN_LEN shows the inputs. -/
theorem regRead_withInputs (s : State) (m : Memory) (w : Word) {r : Reg} (hr : r ≠ .inLen) :
    ({ s with inBuf := m, inLen := w }.regRead r).1 = (s.regRead r).1 := by
  cases r
  case inLen => exact absurd rfl hr
  all_goals
    unfold State.regRead
    dsimp only
    split <;> rfl

/-- No result element shows the inputs, a draw or a reset value included. -/
theorem readResultElem_withInputs (s : State) (m : Memory) (w : Word) (e : ElemRef) :
    ({ s with inBuf := m, inLen := w }.readResultElem e).1 = (s.readResultElem e).1 := by
  unfold State.readResultElem
  dsimp only
  split
  · rfl
  · split <;> rfl

/-- No element outside IN_BUF shows the inputs. -/
theorem bufRead_withInputs (s : State) (m : Memory) (w : Word) {e : ElemRef} (he : ∀ j, e ≠ .elem .inBuf j) :
    ({ s with inBuf := m, inLen := w }.bufRead e).1 = (s.bufRead e).1 := by
  unfold State.bufRead
  dsimp only
  split
  · rw [readElem_result he, readElem_result he]
    dsimp only
    split
    · rfl
    · exact readResultElem_withInputs s m w e
  · rfl

/-- Settles O47: the two writes change IN_BUF and IN_LEN alone, which no other register and no result element shows. -/
theorem inputWritesLeaveResults : Obligations.InputWritesLeaveResults := by
  unfold Obligations.InputWritesLeaveResults
  intro s k v w hb
  obtain ⟨m, hm⟩ := bufWrite_eq_inBuf s (.elem .inBuf k) v
  have ht : (s.bufWrite (.elem .inBuf k) v).regWrite .inLen w = { s with inBuf := m, inLen := w } := by
    rw [hm]
    exact regWrite_inLen (s := { s with inBuf := m }) hb w
  rw [ht]
  exact ⟨fun _ hr => regRead_withInputs s m w hr, fun _ he => bufRead_withInputs s m w he⟩

/-! ### Registers that read alike in every state -/

/-- BUSY does not show in CTRL, IN_LEN, MAXLEN and the reserved words (20_memory.md R69). -/
theorem regRead_unhidden (s : State) {r : Reg}
    (hr : r = .ctrl ∨ r = .inLen ∨ r = .maxLen ∨ ∃ n, r = .reserved n) : s.regRead r = (s.regValue r, s) := by
  unfold State.regRead
  rcases hr with rfl | rfl | rfl | ⟨n, rfl⟩ <;> split <;> rfl

theorem regRead_maxLen (s : State) : (s.regRead .maxLen).1 = BitVec.ofNat 32 s.params.maxLen := by
  rw [regRead_unhidden s (by simp)]; rfl

/-- While not busy a write of CTRL sets OP to v[1:0], START or not (30_encoding.md R81). -/
theorem regWrite_ctrl_ctrlOp {s : State} (hb : s.busy = false) (v : Word) :
    (s.regWrite .ctrl v).ctrlOp = v.extractLsb' 0 2 := by
  have hw : s.regWrite .ctrl v = s.writeCtrl v := by simp [State.regWrite, hb]
  rw [hw, writeCtrl_eq]
  split <;> rfl

/-- The two low bits of a word, zero-extended, are the word masked with 0b11. -/
theorem setWidth_extractLsb'_two (v : Word) : (v.extractLsb' 0 2).setWidth 32 = v &&& 0x3#32 := by
  apply BitVec.eq_of_toNat_eq
  have hmask : v.toNat &&& 3 = v.toNat % 4 := Nat.and_two_pow_sub_one_eq_mod v.toNat 2
  simp only [BitVec.extractLsb'_toNat, BitVec.toNat_setWidth, BitVec.toNat_and, BitVec.toNat_ofNat, Nat.shiftRight_zero,
    Nat.reducePow, Nat.reduceMod, hmask]
  omega

/-- Settles O52: these registers read what they hold in every state; no write reaches MAX_LEN (R29), IN_LEN holds the
whole word written (R28), and CTRL its two low bits (R25). -/
theorem registerReadBack : Obligations.RegisterReadBack := by
  unfold Obligations.RegisterReadBack
  refine ⟨regRead_maxLen, fun s r w => ?_, fun p n => regRead_maxLen _, fun s n => ?_, fun s v hb => ⟨?_, ?_, ?_⟩⟩
  · rw [regRead_maxLen, (HostFrame.regWrite s r w).params]
  · exact regRead_unhidden s (by simp)
  · exact regWrite_inLen hb v
  · rw [regWrite_inLen hb, regRead_unhidden _ (by simp)]; rfl
  · rw [regRead_unhidden _ (by simp), State.regValue, ctrlWord, regWrite_ctrl_ctrlOp hb, setWidth_extractLsb'_two]

end Sys2Proof.Machine

/-! PROOFS. The host's accesses (20_memory.md): the address map and the admitted bus accesses, what reads and ignored
writes leave, what a write of IN_BUF does, and what is locked and what reads return while busy. -/

namespace Sys2Proof.Machine

/-! ### The address map -/

theorem regSpace_range (p : Params) : p.ranges[0]? = some (p.base, 256) := rfl

theorem ptabAff_range (p : Params) : p.ranges[8]? = some (p.windows.ptabAff, 4 * (p.pMax * p.maxLen)) := rfl

theorem bufIndex_ne_regSpace (b : Buffer) : bufIndex b ≠ 0 := by cases b <;> decide

theorem bufIndex_ne_ptabAff (b : Buffer) : bufIndex b ≠ 8 := by cases b <;> decide

theorem bufIndex_ne {b b' : Buffer} (h : b' ≠ b) : bufIndex b ≠ bufIndex b' := by
  rcases other_index h with h | h <;> omega

/-- An address inside one range lies outside every other (20_memory.md R64). -/
theorem outside_other_range {p : Params} (h : p.wf = true) {a i : Nat} {r : Nat × Nat}
    (hi : p.ranges[i]? = some r) (hlow : r.1 ≤ a) (hhigh : a < r.1 + r.2) (j : Nat) (q : Nat × Nat) (hij : i ≠ j)
    (hj : p.ranges[j]? = some q) : a < q.1 ∨ q.1 + q.2 ≤ a := by
  rcases Nat.lt_or_gt_of_ne hij with hlt | hlt
  · have := ranges_disjoint h hlt hi hj
    omega
  · have := ranges_disjoint h hlt hj hi
    omega

/-- An address the block does not hold lies outside every range (20_memory.md R65). -/
theorem outside_range_of_not_held {p : Params} {a i : Nat} {r : Nat × Nat} (h : p.holdsAddress a = false)
    (hi : p.ranges[i]? = some r) : a < r.1 ∨ r.1 + r.2 ≤ a := by
  have hr := List.any_eq_false.1 h r (List.mem_of_getElem? hi)
  simp only [Bool.and_eq_true, decide_eq_true_eq, not_and] at hr
  omega

theorem inAffWindow_none {p : Params} {a : Nat}
    (h : a < p.windows.ptabAff ∨ p.windows.ptabAff + 4 * (p.pMax * p.maxLen) ≤ a) : inAffWindow p a = none := by
  unfold inAffWindow
  rw [windowIndex_none h]
  rfl

theorem inRegSpace_regOffset (p : Params) (r : Reg) : inRegSpace p (p.base + regOffset r) = some (.reg r) := by
  simp [inRegSpace, regAtWord_regOffset]

theorem inWindow_elem {p : Params} {b : Buffer} {k : Nat} (h : k < p.capacity b) :
    inWindow p b (p.windows.ofBuffer b + 4 * k) = some (.elem (.elem b k)) := by
  unfold inWindow
  rw [windowIndex_some h]
  rfl

/-- The index of element (t, j) lies below the size of PTAB_AFF (20_memory.md R60, R64). -/
theorem affIndex_lt {p : Params} {t j : Nat} (ht : t < p.pMax) (hj : j < p.maxLen) :
    t * p.maxLen + j < p.pMax * p.maxLen :=
  calc t * p.maxLen + j < (t + 1) * p.maxLen := by rw [Nat.succ_mul]; omega
    _ ≤ p.pMax * p.maxLen := Nat.mul_le_mul_right _ ht

/-- Index t MAX_LEN + j lies in PTAB_AFF's window, and t and j are its quotient and its remainder. -/
theorem inAffWindow_aff {p : Params} {t j : Nat} (ht : t < p.pMax) (hj : j < p.maxLen) :
    inAffWindow p (p.windows.ptabAff + 4 * (t * p.maxLen + j)) = some (.elem (.aff t j)) := by
  have hdiv : (t * p.maxLen + j) / p.maxLen = t := by
    rw [Nat.mul_comm, Nat.mul_add_div (by omega), Nat.div_eq_of_lt hj, Nat.add_zero]
  have hmod : (t * p.maxLen + j) % p.maxLen = j := by rw [Nat.mul_comm, Nat.mul_add_mod, Nat.mod_eq_of_lt hj]
  simp [inAffWindow, windowIndex_some (affIndex_lt ht hj), hdiv, hmod]

/-- A register's address lies in the register space, which locate reads first. -/
theorem locate_reg (p : Params) (r : Reg) : locate p (p.base + regOffset r) = some (.reg r) := by
  rw [locate, inRegSpace_regOffset]
  rfl

theorem locate_elem {p : Params} (h : p.wf = true) {b : Buffer} {k : Nat} (hk : k < p.capacity b) :
    locate p (p.windows.ofBuffer b + 4 * k) = some (.elem (.elem b k)) := by
  have hout := outside_other_range h (bufIndex_range p b) (Nat.le_add_right _ (4 * k)) (by dsimp only; omega)
  have hreg := inRegSpace_none (hout _ _ (bufIndex_ne_regSpace b) (regSpace_range p))
  have hbuf := findBuffer (inWindow_elem hk) fun b' hb =>
    inWindow_none (hout _ _ (bufIndex_ne hb) (bufIndex_range p b'))
  rw [locate, hreg, hbuf]
  rfl

theorem locate_aff {p : Params} (h : p.wf = true) {t j : Nat} (ht : t < p.pMax) (hj : j < p.maxLen) :
    locate p (p.windows.ptabAff + 4 * (t * p.maxLen + j)) = some (.elem (.aff t j)) := by
  have hindex := affIndex_lt ht hj
  have hout := outside_other_range h (ptabAff_range p) (Nat.le_add_right _ (4 * (t * p.maxLen + j)))
    (by dsimp only; omega)
  have hreg := inRegSpace_none (hout _ _ (by decide) (regSpace_range p))
  have hbuf := findBuffer_none fun b => inWindow_none (hout _ _ (bufIndex_ne_ptabAff b).symm (bufIndex_range p b))
  rw [locate, hreg, hbuf, inAffWindow_aff ht hj]
  rfl

theorem locate_none {p : Params} {a : Nat} (h : p.holdsAddress a = false) : locate p a = none := by
  have hreg := inRegSpace_none (outside_range_of_not_held h (regSpace_range p))
  have hbuf := findBuffer_none fun b => inWindow_none (outside_range_of_not_held h (bufIndex_range p b))
  have haff := inAffWindow_none (outside_range_of_not_held h (ptabAff_range p))
  rw [locate, hreg, hbuf, haff]
  rfl

/-- Settles O50: legal ranges do not meet, so an address in one is found there and in no other. -/
theorem addressMap : Obligations.AddressMap := by
  unfold Obligations.AddressMap
  intro p h
  exact ⟨locate_reg p, fun _ _ => locate_elem h, fun _ _ => locate_aff h, fun _ => locate_none⟩

/-! ### Accesses by bus address -/

/-- An access that is not admitted has no target (20_memory.md R65). -/
theorem busTarget_refused {p : Params} {addr width : Nat} (h : p.admitted addr width = false) :
    busTarget p addr width = .error (.accessNotAdmitted addr width) := by
  unfold busTarget
  split
  · rename_i hwa
    simp only [Bool.and_eq_true, decide_eq_true_eq] at hwa
    have hheld : p.holdsAddress addr = false := by simpa [Params.admitted, hwa] using h
    rw [locate_none hheld]
  · rfl

theorem runLine_memRead_refused {s : State} {addr width : Nat} {e : Refusal}
    (h : busTarget s.params addr width = .error e) (x : Nat) : runLine (.memRead x addr width) s = .refused e := by
  simp only [runLine, h]

theorem runLine_memWrite_refused {s : State} {addr width : Nat} {e : Refusal}
    (h : busTarget s.params addr width = .error e) (v : HostValue) :
    runLine (.memWrite addr width v) s = .refused e := by
  simp only [runLine, h]

/-- An admitted read assigns what its target reads. -/
theorem runLine_memRead_target {s : State} {addr width : Nat} {t : BusTarget}
    (h : busTarget s.params addr width = .ok t) (x : Nat) :
    runLine (.memRead x addr width) s = .next ((s.readTarget t).2.hostAssign x (s.readTarget t).1) := by
  simp only [runLine, h]

/-- An admitted write stores the line's value in its target. -/
theorem runLine_memWrite_target {s : State} {addr width : Nat} {t : BusTarget}
    (h : busTarget s.params addr width = .ok t) (v : HostValue) :
    runLine (.memWrite addr width v) s = .next (s.writeTarget t (s.hostValue v)).hostNext := by
  simp only [runLine, h]

/-- Settles O51: busTarget refuses what is not admitted, and readTarget and writeTarget of an admitted access's target
are the accesses of that register or element. -/
theorem busAccessAdmission : Obligations.BusAccessAdmission := by
  unfold Obligations.BusAccessAdmission
  intro s x addr width
  constructor
  · intro h
    have hbus := busTarget_refused h
    exact ⟨runLine_memRead_refused hbus x, runLine_memWrite_refused hbus⟩
  · intro h
    obtain ⟨hwidth, halign, target, hloc, hbus⟩ := admitted_target h
    have hread := runLine_memRead_target hbus x
    have hwrite := runLine_memWrite_target hbus
    refine ⟨hwidth, halign, ?_⟩
    cases target with
    | reg r => exact .inl ⟨r, hloc, hread, hwrite, fun w => hwrite (.imm w), fun y => hwrite (.var y)⟩
    | elem e => exact .inr ⟨e, hloc, hread, hwrite, fun w => hwrite (.imm w), fun y => hwrite (.var y)⟩

/-! ### What a host access leaves as it was -/

/-- Settles O41: a read leaves the state as it was, or moves the draw counter. -/
theorem readsHaveNoSideEffect : Obligations.ReadsHaveNoSideEffect := by
  unfold Obligations.ReadsHaveNoSideEffect
  exact fun s => ⟨regRead_state s, bufRead_state s⟩

/-- Settles O42: whatever a write changes, it changes through CTRL, IN_LEN or an element of IN_BUF within capacity. -/
theorem readOnlyWritesIgnored : Obligations.ReadOnlyWritesIgnored := by
  unfold Obligations.ReadOnlyWritesIgnored
  intro s v
  refine ⟨fun r hctrl hinLen => ?_, fun e he => ?_, fun k hk => ?_⟩
  · rcases regWrite_cases s r v with h | ⟨-, hr, -⟩ | ⟨-, hr, -⟩ | ⟨-, hr, -⟩
    · exact h
    · exact absurd hr hinLen
    · exact absurd hr hctrl
    · exact absurd hr hctrl
  · rcases bufWrite_cases s e v with h | ⟨k, hk, -⟩
    · exact h
    · exact absurd hk (he k)
  · rcases bufWrite_cases s (.elem .inBuf k) v with h | ⟨k', hk', -, hcap, -⟩
    · exact h
    · cases hk'
      exact absurd hcap (Nat.not_lt.2 hk)

/-- An input symbol depends on IN_BUF, and on the reset's draw where a cell is missing (log 5). -/
theorem inputSymbol_congr {s t : State} (hbuf : t.inBuf = s.inBuf) (hdraw : t.resetDraw = s.resetDraw) (k : Nat) :
    t.inputSymbol k = s.inputSymbol k := by
  rw [State.inputSymbol, State.inputSymbol, hbuf, hdraw]

/-- Settles O43: while busy no write does anything, and the frame of every host line locks the operands. -/
theorem busyLocksOperands : Obligations.BusyLocksOperands := by
  unfold Obligations.BusyLocksOperands
  intro s hb
  refine ⟨regWrite_busy hb _, regWrite_busy hb _, fun k => bufWrite_busy hb _, fun line t h => ?_⟩
  have frame := HostFrame.runLine h
  obtain ⟨hbusy, hdone, hop, hlen, hbuf, -⟩ := frame.locked hb
  exact ⟨hbusy, hdone, hop, hlen, hbuf, inputSymbol_congr hbuf frame.resetDraw, frame.result⟩

/-! ### Writes and reads of IN_BUF -/

/-- While not busy a write within capacity stores v[7:0] (20_memory.md R63). -/
theorem bufWrite_inBuf {s : State} {k : Nat} (hb : s.busy = false) (hk : k < s.params.maxLen) (v : Word) :
    s.bufWrite (.elem .inBuf k) v = { s with inBuf := s.inBuf.write k (v.setWidth 8) } := by
  have hcap : elemExists s.params (.elem .inBuf k) = true := decide_eq_true hk
  simp [State.bufWrite, hb, hcap]

/-- Within capacity IN_BUF reads its symbol, busy or not (20_memory.md R61, R69). -/
theorem bufRead_inBuf {s : State} {k : Nat} (hk : k < s.params.maxLen) :
    s.bufRead (.elem .inBuf k) = ((s.inputSymbol k).setWidth 32, s) := by
  have hcap : elemExists s.params (.elem .inBuf k) = true := decide_eq_true hk
  rw [State.bufRead, if_pos hcap, readElem_inBuf]

theorem inputSymbol_bufWrite_same {s : State} {k : Nat} (hb : s.busy = false)
    (hm : Memory.wf s.params.maxLen s.inBuf) (hk : k < s.params.maxLen) (v : Word) :
    (s.bufWrite (.elem .inBuf k) v).inputSymbol k = v.setWidth 8 := by
  have hcell : k ∈ s.inBuf.map Prod.fst := hm ▸ List.mem_range.2 hk
  rw [bufWrite_inBuf hb hk, State.inputSymbol, Memory.read_write_same _ _ _ hcell, Option.getD_some]

/-- A write of IN_BUF[k], ignored or not, leaves every other input symbol as it was. -/
theorem inputSymbol_bufWrite_other (s : State) {k j : Nat} (h : j ≠ k) (v : Word) :
    (s.bufWrite (.elem .inBuf k) v).inputSymbol j = s.inputSymbol j := by
  rcases bufWrite_cases s (.elem .inBuf k) v with hw | ⟨k', hk', -, -, hw⟩
  · rw [hw]
  · cases hk'
    rw [hw, State.inputSymbol, Memory.read_write_other _ _ _ _ h, State.inputSymbol]

/-- Settles O46: the write replaces the symbol of one cell, and capacity is as before. -/
theorem inBufReadsBackWhatWasWritten : Obligations.InBufReadsBackWhatWasWritten := by
  unfold Obligations.InBufReadsBackWhatWasWritten
  intro s k v hb hm hk t
  have hcap : t.params = s.params := (HostFrame.bufWrite s (.elem .inBuf k) v).params
  have hread : ∀ j, j < s.params.maxLen → t.bufRead (.elem .inBuf j) = ((t.inputSymbol j).setWidth 32, t) :=
    fun j hj => bufRead_inBuf (hcap ▸ hj)
  have hother : ∀ j, j ≠ k → t.inputSymbol j = s.inputSymbol j := fun j hj => inputSymbol_bufWrite_other s hj v
  refine ⟨?_, ?_, hother, fun j hj hne => ?_, State.bufWrite_wf _ v hm⟩
  · obtain ⟨m, hwrite⟩ := bufWrite_eq_inBuf s (.elem .inBuf k) v
    simp only [t, hwrite]
  · rw [hread k hk, inputSymbol_bufWrite_same hb hm hk]
  · rw [hread j hj, bufRead_inBuf hj, hother j hne]

/-! ### Reads while busy -/

theorem regRead_status_busy {s : State} (hb : s.busy = true) :
    (s.regRead .status).1 = busyStatusWord (Config.freeWord s.draws) := by
  simp [State.regRead, hb, State.drawWord]

/-- While busy a result register reads a draw (20_memory.md R69). -/
theorem regRead_result_busy {s : State} (hb : s.busy = true) {r : Reg}
    (hr : r ∈ [Reg.outLen, .npar, .hdist, .detect, .correct, .errPos, .edLen, .logCnt]) :
    s.regRead r = s.drawWord := by
  simp only [List.mem_cons, List.not_mem_nil, or_false] at hr
  rcases hr with rfl | rfl | rfl | rfl | rfl | rfl | rfl | rfl <;> simp [State.regRead, hb]

/-- While busy an element of a result buffer reads a draw, beyond capacity too (20_memory.md R63, R69). -/
theorem bufRead_result_busy {s : State} (hb : s.busy = true) {e : ElemRef} (he : ∀ k, e ≠ .elem .inBuf k) :
    s.bufRead e = s.drawWord := by
  unfold State.bufRead
  split
  · rw [readElem_result he, if_pos hb]
  · rfl

/-- STATUS while busy shows the draw through the mask of RESULT and the four flags, and BUSY = 1 (20_memory.md R69). -/
theorem busyStatusWord_getLsbD (d : Word) (i : Nat) :
    (busyStatusWord d).getLsbD i = (d.getLsbD i && (0x00000F70#32).getLsbD i || (0x00000001#32).getLsbD i) := by
  simp [busyStatusWord]

/-- Settles O44: each read while busy is a draw, or what the register or IN_BUF holds. -/
theorem busyReads : Obligations.BusyReads := by
  unfold Obligations.BusyReads
  intro s hb
  simp only [regRead_status_busy hb, busyStatusWord_getLsbD]
  refine ⟨by simp, by simp, fun i hi => ?_, fun r hr => ?_, fun e he => ?_, regRead_unhidden s (by simp),
    regRead_unhidden s (by simp), regRead_unhidden s (by simp), fun k hk => bufRead_inBuf hk⟩
  · have hmask : ∀ i ∈ [4, 5, 6, 8, 9, 10, 11],
        (0x00000F70#32).getLsbD i = true ∧ (0x00000001#32).getLsbD i = false := by decide
    obtain ⟨hdraw, hset⟩ := hmask i hi
    rw [hdraw, hset, Bool.and_true, Bool.or_false]
  · rw [regRead_result_busy hb hr, State.drawWord]
  · rw [bufRead_result_busy hb he, State.drawWord]

/-- The bits of a word at and above a power of two that bounds it are 0. -/
theorem getLsbD_of_lt_two_pow {w : Word} {n i : Nat} (hw : w.toNat < 2 ^ n) (hi : n ≤ i) : w.getLsbD i = false :=
  Nat.testBit_lt_two_pow (Nat.lt_of_lt_of_le hw (Nat.pow_le_pow_right (by decide) hi))

/-- Settles O45: the mask of STATUS while busy and its BUSY bit leave out every reserved bit. -/
theorem busyStatusReservedBits : Obligations.BusyStatusReservedBits := by
  unfold Obligations.BusyStatusReservedBits
  intro s hb i hi
  have hclear : (0x00000F70#32).getLsbD i = false ∧ (0x00000001#32).getLsbD i = false := by
    rcases hi with rfl | rfl | rfl | hi
    · decide
    · decide
    · decide
    · exact ⟨getLsbD_of_lt_two_pow (n := 12) (by decide) hi, getLsbD_of_lt_two_pow (n := 12) (by decide) hi⟩
  obtain ⟨hmask, hset⟩ := hclear
  rw [regRead_status_busy hb, busyStatusWord_getLsbD, hmask, hset, Bool.and_false, Bool.or_false]

end Sys2Proof.Machine

/-! PROOFS. The command word and the host's lines (30_encoding.md): what START and OP of a CTRL write value decide, how
a host line runs, and how the elements of the result buffers read. -/

namespace Sys2Proof.Machine

/-! ### Bits 4, 1 and 0 of a command word -/

/-- The value of v & 0x13 for a word v with the given START and OP (30_encoding.md R82, R87). -/
def maskedCommand (start : Bool) (op : BitVec 2) : Word := ((start.toNat * 16 + op.toNat : Nat) : Word)

theorem maskedCommand_inj : ∀ (start start' : Bool) (op op' : BitVec 2),
    maskedCommand start op = maskedCommand start' op' ↔ start = start' ∧ op = op' := by decide

theorem maskedCommand_setOp_lt : ∀ op : BitVec 2, (maskedCommand false op).toNat < 4 := by decide

theorem maskedCommand_opOf (i : Instr) : maskedCommand true (opOf i) = encode i := by cases i <;> rfl

/-- The ignored bits of an operation's command word are 0 (30_encoding.md R82). -/
theorem encode_and_13 (i : Instr) : encode i &&& 0x13#32 = encode i := by
  cases i with
  | encode =>
    obtain ⟨-, -, -, hmask⟩ := Sys2Proof.Laws.CommandWord.encode
    exact hmask
  | decode =>
    obtain ⟨-, -, -, hmask⟩ := Sys2Proof.Laws.CommandWord.decode
    exact hmask

theorem and_13_eq_maskedCommand (v : Word) : v &&& 0x13#32 = maskedCommand (v.getLsbD 4) (v.extractLsb' 0 2) :=
  and_13 v

/-- A masked word determines START and OP, and they determine it. -/
theorem and_13_eq_maskedCommand_iff {v : Word} {start : Bool} {op : BitVec 2} :
    v &&& 0x13#32 = maskedCommand start op ↔ v.getLsbD 4 = start ∧ v.extractLsb' 0 2 = op := by
  rw [and_13_eq_maskedCommand, maskedCommand_inj]

/-- Words that agree in bits 4, 1 and 0 agree in START and OP. -/
theorem and_13_eq_iff {v w : Word} :
    v &&& 0x13#32 = w &&& 0x13#32 ↔ v.getLsbD 4 = w.getLsbD 4 ∧ v.extractLsb' 0 2 = w.extractLsb' 0 2 := by
  rw [and_13_eq_maskedCommand w, and_13_eq_maskedCommand_iff]

/-! ### The decoder -/

theorem instrOfOp_eq_some_iff {op : BitVec 2} {i : Instr} : instrOfOp op = some i ↔ op = opOf i := by
  cases i <;> revert op <;> decide

theorem instrOfOp_reserved {op : BitVec 2} (h : op = 0b00#2 ∨ op = 0b11#2) : instrOfOp op = none := by
  rcases h with rfl | rfl <;> rfl

theorem decode_of_not_start {v : Word} (hv : v.getLsbD 4 = false) : decode v = .error .noStart := by
  have hstart : startField v = false := hv
  simp [decode, classify, hstart]

theorem decode_of_start {v : Word} {i : Instr} (hv : v.getLsbD 4 = true)
    (hi : instrOfOp (v.extractLsb' 0 2) = some i) : decode v = .ok i := by
  have hstart : startField v = true := hv
  have hop : instrOfOp (opField v) = some i := hi
  simp [decode, classify, hstart, hop]

theorem decode_of_reserved {v : Word} (hv : v.getLsbD 4 = true) (hi : instrOfOp (v.extractLsb' 0 2) = none) :
    decode v = .error (.reservedOp (v.extractLsb' 0 2)) := by
  have hstart : startField v = true := hv
  have hop : instrOfOp (opField v) = none := hi
  change decode v = .error (.reservedOp (opField v))
  simp [decode, classify, hstart, hop]

/-- A word is the command of i exactly when START is set and OP is that of i. -/
theorem decode_eq_ok_iff {v : Word} {i : Instr} :
    decode v = .ok i ↔ v.getLsbD 4 = true ∧ v.extractLsb' 0 2 = opOf i := by
  cases hv : v.getLsbD 4 with
  | false => simp [decode_of_not_start hv]
  | true =>
    cases hop : instrOfOp (v.extractLsb' 0 2) with
    | none =>
      have hne : v.extractLsb' 0 2 ≠ opOf i := fun h => by simp [h] at hop
      simp [decode_of_reserved hv hop, hne]
    | some k =>
      have hk : k = i ↔ v.extractLsb' 0 2 = opOf i := by rw [← instrOfOp_eq_some_iff, hop, Option.some.injEq]
      simp [decode_of_start hv hop, hk]

/-- Settles O4: to decode to i is to have START set and the OP of i, which is what the masked word of i says. -/
theorem decodeEncodeAgree : Obligations.DecodeEncodeAgree := by
  unfold Obligations.DecodeEncodeAgree
  have hiff : ∀ (v : Word) (i : Instr), decode v = .ok i ↔ v &&& 0x13#32 = encode i := fun v i => by
    rw [decode_eq_ok_iff, ← maskedCommand_opOf, and_13_eq_maskedCommand_iff]
  exact ⟨fun i _ => (hiff _ i).2 (encode_and_13 i), hiff, fun _ => decode_of_not_start,
    fun _ hv hop => decode_of_reserved hv (instrOfOp_reserved hop)⟩

/-- Settles O5: seven closed words. -/
theorem tableWordsDecode : Obligations.TableWordsDecode := by
  unfold Obligations.TableWordsDecode
  decide

/-! ### Writes of CTRL -/

theorem regWrite_ctrl {s : State} (hb : s.busy = false) (v : Word) : s.regWrite .ctrl v = s.writeCtrl v := by
  simp [State.regWrite, hb]

/-- While not busy a START sets OP and BUSY, clears DONE, and draws the operation's latency (30_encoding.md R81). -/
theorem regWrite_ctrl_start {s : State} {v : Word} (hb : s.busy = false) (hv : v.getLsbD 4 = true) :
    s.regWrite .ctrl v =
      { s with
        ctrlOp := v.extractLsb' 0 2, busy := true, done := false
        latency := Config.latency s.draws, draws := s.draws + 1 } := by
  rw [regWrite_ctrl hb, writeCtrl_eq, if_pos hv]

/-- While not busy a write with START clear sets OP alone (30_encoding.md R81). -/
theorem regWrite_ctrl_setOp {s : State} {v : Word} (hb : s.busy = false) (hv : v.getLsbD 4 = false) :
    s.regWrite .ctrl v = { s with ctrlOp := v.extractLsb' 0 2 } := by
  rw [regWrite_ctrl hb, writeCtrl_eq, if_neg (by rw [hv]; decide)]

/-- Settles O1: a CTRL write is ignored, or it is one of the two writes above. -/
theorem ctrlWriteEffect : Obligations.CtrlWriteEffect := by
  unfold Obligations.CtrlWriteEffect
  intro s v
  refine ⟨fun hb => regWrite_busy hb .ctrl v, fun hb hv => regWrite_ctrl_setOp hb hv, fun hb hv => ?_⟩
  rw [regWrite_ctrl_start hb hv]
  exact ⟨rfl, rfl, rfl, rfl, rfl, rfl, rfl, rfl, rfl⟩

/-- Settles O3: bits 4, 1 and 0 are START and OP, and a CTRL write reads no other bit. -/
theorem ignoredCommandBits : Obligations.IgnoredCommandBits := by
  unfold Obligations.IgnoredCommandBits
  intro s v w h
  obtain ⟨hstart, hop⟩ := and_13_eq_iff.1 h
  cases hb : s.busy with
  | true => rw [regWrite_busy hb, regWrite_busy hb]
  | false =>
    cases hv : v.getLsbD 4 with
    | false => rw [regWrite_ctrl_setOp hb hv, regWrite_ctrl_setOp hb (hstart ▸ hv), hop]
    | true => rw [regWrite_ctrl_start hb hv, regWrite_ctrl_start hb (hstart ▸ hv), hop]

/-! ### The completion a CTRL write enables -/

theorem complete_of_op {s : State} {i : Instr} (h : s.ctrlOp = opOf i) : complete s = exec i s := by
  simp [complete, h]

/-- A reserved OP completes with Empty(ILLEGAL_OP) (60_exceptions.md R274). -/
theorem complete_reserved {s : State} (h : s.ctrlOp = 0b00#2 ∨ s.ctrlOp = 0b11#2) :
    complete s = .next (s.takeException .illegalOp) := by
  simp [complete, instrOfOp_reserved h]

/-- A START with the OP of i enables the completion of i. -/
theorem start_enables {s : State} {v : Word} {i : Instr} (hb : s.busy = false) (hv : v.getLsbD 4 = true)
    (hop : v.extractLsb' 0 2 = opOf i) :
    (s.regWrite .ctrl v).busy = true ∧ complete (s.regWrite .ctrl v) = exec i (s.regWrite .ctrl v) := by
  rw [regWrite_ctrl_start hb hv]
  exact ⟨rfl, complete_of_op hop⟩

/-- A START with a reserved OP enables a completion with Empty(ILLEGAL_OP). -/
theorem start_reserved_enables {s : State} {v : Word} {op : BitVec 2} (hb : s.busy = false)
    (hv : v.getLsbD 4 = true) (hop : v.extractLsb' 0 2 = op) (hres : op = 0b00#2 ∨ op = 0b11#2) :
    (s.regWrite .ctrl v).busy = true ∧ (s.regWrite .ctrl v).ctrlOp = op ∧
      ∃ u, complete (s.regWrite .ctrl v) = .next u ∧ u.result = ResultState.empty .illegalOp := by
  rw [regWrite_ctrl_start hb hv]
  exact ⟨rfl, hop, _, complete_reserved (hop ▸ hres), rfl⟩

/-- A word outside the four START rows of the table has START clear (30_encoding.md R87). -/
theorem not_start_of_no_row {v : Word} (h : ∀ op, v &&& 0x13#32 ≠ maskedCommand true op) : v.getLsbD 4 = false := by
  by_contra hv
  exact h _ (and_13_eq_maskedCommand_iff.2 ⟨by simpa using hv, rfl⟩)

theorem op_cases : ∀ op : BitVec 2, op = 0b00#2 ∨ op = 0b01#2 ∨ op = 0b10#2 ∨ op = 0b11#2 := by decide

/-- Settles O2: each row of the table is a value of START and OP, and the last row holds every word with START clear. -/
theorem commandTableIsTotal : Obligations.CommandTableIsTotal := by
  unfold Obligations.CommandTableIsTotal
  intro s v t
  refine ⟨fun hb => regWrite_busy hb .ctrl v, fun hb => ?_⟩
  split_ifs with h11 h12 h10 h13
  · obtain ⟨hv, hop⟩ := (and_13_eq_maskedCommand_iff (start := true) (op := 0b01#2)).1 h11
    exact start_enables (i := .encode) hb hv hop
  · obtain ⟨hv, hop⟩ := (and_13_eq_maskedCommand_iff (start := true) (op := 0b10#2)).1 h12
    exact start_enables (i := .decode) hb hv hop
  · obtain ⟨hv, hop⟩ := (and_13_eq_maskedCommand_iff (start := true) (op := 0b00#2)).1 h10
    exact start_reserved_enables hb hv hop (.inl rfl)
  · obtain ⟨hv, hop⟩ := (and_13_eq_maskedCommand_iff (start := true) (op := 0b11#2)).1 h13
    exact start_reserved_enables hb hv hop (.inr rfl)
  · have hv : v.getLsbD 4 = false := not_start_of_no_row fun op => by
      rcases op_cases op with rfl | rfl | rfl | rfl
      · exact h10
      · exact h11
      · exact h12
      · exact h13
    rw [and_13_eq_maskedCommand, hv]
    exact ⟨maskedCommand_setOp_lt _, regWrite_ctrl_setOp hb hv⟩

/-! ### A command word placed where the core takes its operation -/

/-- A 32-bit table word is the CTRL write value itself (log 17). -/
theorem tableWord_toNat (v : Word) : tableWord 32 v.toNat = v := by
  rw [tableWord, Nat.mod_eq_of_lt v.isLt, BitVec.ofNat_toNat, BitVec.setWidth_eq]

/-- After an accepted START the core has the next move, with no latency to spend (log 11). -/
theorem accepted_coreMoves (s : State) {v : Word} (hv : v.getLsbD 4 = true) : (s.accepted v).coreMoves :=
  ⟨rfl, hv, .inl rfl⟩

/-- Settles O7: the core moves, no reset is due, and CTRL.OP is that of the decoded operation. -/
theorem fetchedCommandRuns : Obligations.FetchedCommandRuns := by
  unfold Obligations.FetchedCommandRuns
  intro s v i h
  obtain ⟨hv, hop⟩ := decode_eq_ok_iff.1 h
  have htick : (s.accepted v).tick = s.accepted v := rfl
  rw [State.withFetchWord, tableWord_toNat, step_core (accepted_coreMoves s hv), htick, complete_of_op hop]

/-! ### Host lines -/

/-- An assignment on a state that is s is an assignment on s. -/
theorem assigns_of_eq {s t : State} (h : t = s) (x : Nat) (v : Word) : s.assigns (t.hostAssign x v) x v := by
  rw [h]
  exact hostAssign_assigns s x v

/-- Settles O8: the host's step is its line, and a read leaves the state as it was, or moves the draw counter. -/
theorem hostLineRuns : Obligations.HostLineRuns := by
  unfold Obligations.HostLineRuns
  intro s line h u
  have hrun : step s = runLine line u := host_step h
  refine ⟨hrun, ?_, ?_, ?_, ?_, ?_, ?_⟩
  · rintro r v rfl; exact hrun
  · rintro r y rfl; exact hrun
  · rintro e v rfl; exact hrun
  · rintro e y rfl; exact hrun
  · rintro x r rfl
    refine ⟨hrun, ?_⟩
    rcases regRead_state u r with hread | ⟨hb, hread⟩
    · exact .inl (assigns_of_eq hread x _)
    · exact .inr ⟨hb, assigns_of_eq hread x _⟩
  · rintro x e rfl
    exact ⟨hrun, (bufRead_state u e).imp (assigns_of_eq · x _) (assigns_of_eq · x _)⟩

/-- The number that EXT reads from a field of a word (00_scope.md R15). -/
theorem bitField_toNat {hi : Nat} (h : hi < 32) (y : Word) (lo : Nat) :
    (bitField y hi lo).toNat = y.toNat / 2 ^ lo % 2 ^ (hi + 1 - lo) := by
  have hwidth : 2 ^ (hi + 1 - lo) ≤ 2 ^ 32 := Nat.pow_le_pow_right (by decide) (by omega)
  have hlt : y.toNat / 2 ^ lo % 2 ^ (hi + 1 - lo) < 2 ^ 32 :=
    Nat.lt_of_lt_of_le (Nat.mod_lt _ (by positivity)) hwidth
  rw [bitField, BitVec.toNat_setWidth, BitVec.extractLsb'_toNat, Nat.shiftRight_eq_div_pow, Nat.mod_eq_of_lt hlt]

theorem hostJump_label {s : State} {l n : Nat} (h : s.host.program.findIdx? (· == .label l) = some n) :
    s.hostJump l = .next (s.hostGoto n) := by
  rw [State.hostJump, h]

/-- A branch whose label stands in the program goes there exactly when its test holds. -/
theorem hostBranch_label {s : State} {l n : Nat} (h : s.host.program.findIdx? (· == .label l) = some n)
    {c : Bool} {p : Prop} [Decidable p] (hc : c = true ↔ p) :
    s.hostBranch c l = .next (if p then s.hostGoto n else s.hostNext) := by
  unfold State.hostBranch
  by_cases hp : p
  · rw [if_pos hp, if_pos (hc.2 hp), hostJump_label h]
  · rw [if_neg hp, if_neg (mt hc.1 hp)]

/-- Settles O9: EXT assigns a field or a draw, and a label that stands in the program has a line to go to. -/
theorem hostControlForms : Obligations.HostControlForms := by
  unfold Obligations.HostControlForms
  intro s x y hi lo l w hlo hhi hl
  obtain ⟨n, hn, hline⟩ := findIdx?_label hl
  refine ⟨⟨_, bitField_toNat hhi (lookupVar s.host.vars y) lo, ?_, hostAssign_assigns s x _⟩, fun hi' lo' hno => ?_,
    rfl, rfl, n, hline, hostJump_label hn, hostBranch_label hn (by simp), hostBranch_label hn (by simp),
    hostBranch_label hn (by simp)⟩
  · rw [runLine, extract_field hlo hhi]
  · refine ⟨?_, hostAssign_assigns _ x _⟩
    rw [runLine, extract_draw hno, State.drawWord]

/-! ### Elements of the result buffers -/

/-- An element of a string buffer that holds a bit is valid, and reads the bit's symbol (30_encoding.md R85). -/
theorem stringElem_of_getElem? {c : Option BitString} {k : Nat} {b : Bit} (h : (c.getD [])[k]? = some b) :
    k < lengthOf c ∧ stringElem c k = some (if b then 0x31#32 else 0x30#32) := by
  cases c with
  | none => simp at h
  | some bits =>
    have hbit : bits[k]? = some b := h
    exact ⟨(List.getElem?_eq_some_iff.1 hbit).1, by simp [stringElem, hbit, setWidth_symbolOfBit]⟩

/-- A string that is longer than some k is present. -/
theorem isSome_of_lt_lengthOf {c : Option BitString} {k : Nat} (h : k < lengthOf c) : c.isSome = true := by
  cases c with
  | none => simp [lengthOf] at h
  | some _ => rfl

theorem ofCount_toNat (b : Bool) : Word.ofCount b.toNat = if b then 1#32 else 0#32 := by cases b <;> rfl

section
variable {s : State} (hs : s.Inv) (hb : s.busy = false)
include hs hb

/-- The three string buffers (10_state.md R39 to R41). -/
theorem bufRead_strings (k : Nat) (b : Bit) :
    ((s.result.out.getD [])[k]? = some b → s.bufRead (.elem .outBuf k) = (if b then 0x31#32 else 0x30#32, s)) ∧
    ((s.result.orig.getD [])[k]? = some b → s.bufRead (.elem .origBuf k) = (if b then 0x31#32 else 0x30#32, s)) ∧
    ((s.result.corr.getD [])[k]? = some b → s.bufRead (.elem .corrBuf k) = (if b then 0x31#32 else 0x30#32, s)) := by
  refine ⟨fun h => ?_, fun h => ?_, fun h => ?_⟩ <;> obtain ⟨hk, hv⟩ := stringElem_of_getElem? h
  · exact bufRead_valid hb (decide_eq_true (Nat.lt_of_lt_of_le hk hs.fits.out)) hv
  · exact bufRead_valid hb (decide_eq_true (Nat.lt_of_lt_of_le hk hs.fits.orig)) hv
  · have hlen : lengthOf s.result.corr ≤ s.params.maxLen := by
      rw [hs.fits.corr (isSome_of_lt_lengthOf hk)]
      exact hs.fits.orig
    exact bufRead_valid hb (decide_eq_true (Nat.lt_of_lt_of_le hk hlen)) hv

/-- The four arrays of the parity table (10_state.md R42). -/
theorem bufRead_entry {t : Nat} {e : Entry} (h : s.result.ptab[t]? = some e) :
    s.bufRead (.elem .ptabPos t) = (Word.ofCount e.parityPosition, s) ∧
    s.bufRead (.elem .ptabVal t) = (Word.ofCount e.parityValue.toNat, s) ∧
    s.bufRead (.elem .ptabCnt t) = (Word.ofCount e.affectedPositions.length, s) ∧
    ∀ j a, e.affectedPositions[j]? = some a → s.bufRead (.aff t j) = (Word.ofCount a, s) := by
  have ht : t < s.params.pMax := Nat.lt_of_lt_of_le (List.getElem?_eq_some_iff.1 h).1 hs.fits.table
  refine ⟨?_, ?_, ?_, fun j a ha => ?_⟩
  · exact bufRead_valid hb (decide_eq_true ht) (by simp [ResultState.elem, h])
  · exact bufRead_valid hb (decide_eq_true ht) (by simp [ResultState.elem, h])
  · exact bufRead_valid hb (decide_eq_true ht) (by simp [ResultState.elem, h])
  · have hj : j < s.params.maxLen :=
      Nat.lt_of_lt_of_le (List.getElem?_eq_some_iff.1 ha).1 (hs.fits.affected e (List.mem_of_getElem? h))
    exact bufRead_valid hb (by simp [elemExists, ht, hj]) (by simp [ResultState.elem, h, ha])

/-- The four words of an event of the step log (10_state.md R43, 30_encoding.md R88). -/
theorem bufRead_event {k : Nat} {ev : Event} (h : s.result.log[k]? = some ev) :
    s.bufRead (.elem .logKind k) = (Word.ofCount ev.kind, s) ∧
    s.bufRead (.elem .logA k) = (Word.ofCount ev.argA, s) ∧
    s.bufRead (.elem .logB k) = (Word.ofCount ev.argB, s) ∧
    s.bufRead (.elem .logC k) = (Word.ofCount ev.argC, s) := by
  have hk : k < s.params.logMax := Nat.lt_of_lt_of_le (List.getElem?_eq_some_iff.1 h).1 hs.fits.events
  refine ⟨?_, ?_, ?_, ?_⟩ <;>
    exact bufRead_valid hb (decide_eq_true hk) (by simp [ResultState.elem, h])

end

/-- Settles O48: under the invariant every valid element lies within its buffer's capacity, so it reads its value. -/
theorem resultBuffersHoldTheResult : Obligations.ResultBuffersHoldTheResult := by
  unfold Obligations.ResultBuffersHoldTheResult
  intro s hs hb
  refine ⟨bufRead_strings hs hb, fun t e h => ?_, fun k ev h => ?_⟩
  · obtain ⟨hpos, hval, hcnt, haff⟩ := bufRead_entry hs hb h
    exact ⟨hpos, by rw [hval, ofCount_toNat], hcnt, haff⟩
  · obtain ⟨hkind, hA, hB, hC⟩ := bufRead_event hs hb h
    rw [hkind, hA, hB, hC]
    cases ev with
    | parity p v => simp only [Event.kind, Event.argA, Event.argB, Event.argC, ofCount_toNat]
    | check p v => simp only [Event.kind, Event.argA, Event.argB, Event.argC, ofCount_toNat]
    | _ => rfl

end Sys2Proof.Machine

/-! PROOFS. The position classifier (40_classifier.md): the parity positions, the number of parity bits, and the counts
of both kinds of position. -/

namespace Sys2Proof.Machine

/-- Settles O20: the loop stops at the first r that fits, so a q that fits cannot lie below it. -/
theorem requiredParityBitsIsLeast : Obligations.RequiredParityBitsIsLeast := by
  unfold Obligations.RequiredParityBitsIsLeast
  intro m hm
  obtain ⟨-, hfits, hbelow⟩ := requiredParityBits_spec hm
  refine ⟨two_le_requiredParityBits hm, hfits, fun q hq hqfits => ?_⟩
  exact Nat.le_of_not_lt fun hlt => Nat.not_lt_of_le hqfits (hbelow q hq hlt)

/-- 40_classifier.md R117: the parity positions of a codeword of length n = m + r are 2^0, ..., 2^(r-1). -/
theorem filter_isParityPosition_codeword {m : Nat} (hm : 1 ≤ m) :
    (List.range' 1 (m + requiredParityBits m)).filter isParityPosition = parityPositions (requiredParityBits m) := by
  have hr := two_le_requiredParityBits hm
  rw [filter_isParityPosition (by omega), flog2_codeword_length hm, Nat.sub_add_cancel (by omega)]

/-- Settles O21: 2^(r-1) <= n < 2^r, so flog2(n) + 1 = r, and the powers of two up to N number flog2(N) + 1. -/
theorem codewordPositionCounts : Obligations.CodewordPositionCounts := by
  unfold Obligations.CodewordPositionCounts
  refine ⟨fun m hm => ?_, fun N hN => ⟨?_, dataPositions_length hN⟩⟩
  · obtain ⟨hlow, hhigh⟩ := codeword_length_bounds hm
    exact ⟨hlow, hhigh, filter_isParityPosition_codeword hm, dataPositions_codeword_length hm,
      flog2_codeword_length hm⟩
  · simp [filter_isParityPosition hN, parityPositions]

/-- Settles O19: clearing the lowest set bit of i leaves 0 exactly when i is a power of two. -/
theorem parityPositionsArePowersOfTwo : Obligations.ParityPositionsArePowersOfTwo := by
  unfold Obligations.ParityPositionsArePowersOfTwo
  exact fun _ hi => isParityPosition_iff hi

end Sys2Proof.Machine

/-! PROOFS. The parity groups (41_parity_group.md): which groups a position lies in, the positions that no group
covers, the parity positions inside the groups, and the runs of a group under both values of GROUP_OFFSET. -/

namespace Sys2Proof.Machine

/-- A set bit of j + 1 exceeds j only when it is all of j + 1 (41_parity_group.md R136). -/
theorem succ_eq_two_pow_of_testBit {i j : Nat} (hb : (j + 1).testBit i = true) (hlt : j < 2 ^ i) : j + 1 = 2 ^ i :=
  Nat.le_antisymm hlt (Nat.ge_two_pow_of_testBit hb)

/-- Settles O22: j feeds the parities whose bits are set in j + 1, each at most j unless it is all of j + 1. -/
theorem groupMembershipLaw : Obligations.GroupMembershipLaw := by
  unfold Obligations.GroupMembershipLaw
  intro n j _ hn i
  refine ⟨?_, mem_group_normative hn, fun ⟨_, hk⟩ => notMem_group_uncovered hk, succ_eq_two_pow_of_testBit⟩
  rw [mem_group, inGroup, bne_iff_ne]
  exact and_congr_right fun _ => and_iff_right hn

/-- A bit outside a group does not count in the group's parity value. -/
theorem parityValue_setBit_notMem {off i j : Nat} {c : BitString} (hj : 1 ≤ j)
    (h : j ∉ group off c.length (2 ^ i)) (v : Bit) :
    parityValue off (setBit c j v) (2 ^ i) = parityValue off c (2 ^ i) := by
  rw [parityValue, setBit_length, xorAt_setBit_notMem hj group_pos h, parityValue]

/-- Settles O23: j + 1 = 2^(k+1) puts j in no group, so no parity value reads the bit there. -/
theorem uncoveredPositions : Obligations.UncoveredPositions := by
  unfold Obligations.UncoveredPositions
  intro k i n
  have htwo : 2 ≤ 2 ^ (k + 1) := Nat.le_self_pow k.succ_ne_zero 2
  have hsucc : 2 ^ (k + 1) - 1 + 1 = 2 ^ (k + 1) := by omega
  exact ⟨notMem_group_uncovered hsucc,
    fun _ => parityValue_setBit_notMem (by omega) (notMem_group_uncovered hsucc)⟩

/-- Position j feeds parity 1 exactly when it is even (41_parity_group.md R138). -/
theorem inGroup_one (j : Nat) : inGroup 1 1 j = (j % 2 == 0) := by
  have hbit : inGroup 1 (2 ^ 0) j = (j + 1).testBit 0 := inGroup_two_pow 1 0 j
  rw [Nat.pow_zero, Nat.testBit_zero] at hbit
  rw [hbit, beq_eq_decide]
  exact decide_eq_decide.2 (by omega)

/-- A group holds no position beyond n, so a law of its parity positions up to n is a law of all of them. -/
theorem two_pow_mem_group_of_le {off n i k : Nat} (hk : 2 ^ k ≤ n)
    (h : 2 ^ i ≤ n → (2 ^ i ∈ group off n (2 ^ k) ↔ i = k)) : 2 ^ i ∈ group off n (2 ^ k) ↔ i = k :=
  ⟨fun hmem => have ⟨_, hi, _⟩ := mem_group.1 hmem; (h hi).1 hmem, fun hik => (h (hik ▸ hk)).2 hik⟩

/-- Settles O24: the powers of two from 2 on are even, and position 1 is uncovered since 1 + 1 is a power of two. -/
theorem parityPositionsInGroups : Obligations.ParityPositionsInGroups := by
  unfold Obligations.ParityPositionsInGroups
  intro n
  refine ⟨?_, fun k hk hkn => ⟨?_, fun i => ?_⟩, fun i => ?_⟩
  · exact List.filter_congr fun j _ => inGroup_one j
  · have heven : 2 ∣ 2 ^ k := dvd_pow_self 2 (by omega)
    exact mem_group_one.2 ⟨Nat.le_self_pow (by omega) 2, hkn, Nat.mod_eq_zero_of_dvd heven⟩
  · exact two_pow_mem_group_of_le hkn (two_pow_mem_group_normative hk)
  · exact notMem_group_uncovered (k := 1) rfl

/-- Bit i of m is set exactly in the runs of 2^i numbers that start at an odd multiple of 2^i. -/
theorem testBit_iff_run {m i : Nat} :
    m.testBit i = true ↔ ∃ k, 2 ^ i + 2 * 2 ^ i * k ≤ m ∧ m < 2 * 2 ^ i + 2 * 2 ^ i * k := by
  rw [Nat.testBit_eq_decide_div_mod_eq, decide_eq_true_iff, ← Nat.odd_iff]
  refine exists_congr fun k => ?_
  have hlow : (2 * k + 1) * 2 ^ i = 2 ^ i + 2 * 2 ^ i * k := by ring
  have hpos := Nat.two_pow_pos i
  rw [Nat.div_eq_iff hpos, hlow]
  omega

/-- The runs of a group, shifted down by GROUP_OFFSET (41_parity_group.md R139). -/
theorem mem_group_iff_run {off n i j : Nat} (hoff : off ≤ 2 ^ i) :
    j ∈ group off n (2 ^ i) ↔ 2 ^ i ≤ j ∧ j ≤ n ∧
      ∃ k, 2 ^ i - off + 2 * 2 ^ i * k ≤ j ∧ j ≤ 2 * 2 ^ i - (1 + off) + 2 * 2 ^ i * k := by
  have hpos := Nat.two_pow_pos i
  rw [mem_group_two_pow, testBit_iff_run]
  refine and_congr_right fun _ => and_congr_right fun _ => exists_congr fun k => ?_
  omega

/-- Settles O25: j lies in a run exactly when bit i of j + GROUP_OFFSET is set; under the textbook rule any set bit of
j names a group that covers it. -/
theorem groupRuns : Obligations.GroupRuns := by
  unfold Obligations.GroupRuns
  intro n i j
  refine ⟨mem_group_iff_run Nat.one_le_two_pow, mem_group_iff_run (Nat.zero_le _), mem_group_textbook,
    fun hj hn => ?_, fun hi k => two_pow_mem_group_of_le hi two_pow_mem_group_textbook⟩
  obtain ⟨k, hk⟩ := Nat.exists_testBit_of_ne_zero (Nat.ne_of_gt hj)
  exact ⟨k, (mem_group_textbook hn).2 hk⟩

end Sys2Proof.Machine

/-! PROOFS. ENCODE (42_encode.md): its exceptions in their order, its whole result, and the parity bits of its codeword
as values over the placeholder codeword, in closed form, recomputed, and under changes of the payload. -/

namespace Sys2Proof.Machine

/-! ### The exceptions -/

/-- An exception that ENCODE raises ends it, and nothing else of it runs (60_exceptions.md R276, R277). -/
theorem exec_encode_of_error {s : State} {c : ResultCode}
    (h : encodeOp s.params s.inputLength s.inputSymbol = .error c) :
    exec .encode s = .next (s.takeException c) := by
  rw [exec, execEncode, h, State.finishTry]

/-- An exception of the common checks ends ENCODE (42_encode.md R160). -/
theorem encodeOp_of_check_error {s : State} {c : ResultCode}
    (h : checkInput s.params.maxLen s.inputLength s.inputSymbol = .error c) :
    encodeOp s.params s.inputLength s.inputSymbol = .error c := by
  rw [encodeOp, h]

/-- A payload whose codeword does not fit ends ENCODE (60_exceptions.md R275). -/
theorem encodeOp_of_long_codeword {s : State} {d : BitString} (h : s.hasInput d) (hd : d ≠ [])
    (hm : d.length ≤ s.params.maxLen) (hn : s.params.maxLen < d.length + requiredParityBits d.length) :
    encodeOp s.params s.inputLength s.inputSymbol = .error .lengthError := by
  have hlen : s.inputLength = d.length := h.1
  rw [encodeOp, checkInput_ok h hd hm, hlen]
  exact if_pos hn

/-- Settles O13: the checks answer at most one exception, and what passes them is encodable or too long. -/
theorem encodeExceptionsInOrder : Obligations.EncodeExceptionsInOrder := by
  unfold Obligations.EncodeExceptionsInOrder
  intro s
  rcases checkInput_cases s with ⟨h0, h⟩ | ⟨h0, hm, h⟩ | ⟨h0, hm, hv, h⟩ | ⟨d, hd, hne, hm, -⟩
  · refine ⟨_, exec_encode_of_error (encodeOp_of_check_error h), ?_⟩
    simp [h0]
  · refine ⟨_, exec_encode_of_error (encodeOp_of_check_error h), ?_⟩
    simp [h0, hm, Nat.not_le.2 hm]
  · refine ⟨_, exec_encode_of_error (encodeOp_of_check_error h), ?_⟩
    simp [h0, hv, Nat.not_lt.2 hm]
  · have h0 : d.length ≠ 0 := by simpa using hne
    rw [hd.1]
    by_cases hn : s.params.maxLen < d.length + requiredParityBits d.length
    · refine ⟨_, exec_encode_of_error (encodeOp_of_long_codeword hd hne hm hn), ?_⟩
      simp [h0, hd.symbolsValid, Nat.not_lt.2 hm, Nat.not_le.2 hn]
    · have he : s.encodable d := ⟨hd, hne, Nat.not_lt.1 hn⟩
      refine ⟨_, he.execEncode_eq, ?_⟩
      simp [h0, hd.symbolsValid, Nat.not_lt.2 hm, hn, encodeResult]

/-! ### The result -/

/-- Every parity bit is the parity value over the placeholder codeword, which is the codeword with its parity bits
cleared (42_encode.md R173). -/
theorem codewordOf_parity_clearParity {off i : Nat} {d : BitString} (hd : 1 ≤ d.length)
    (h : i < requiredParityBits d.length) :
    bitAt (codewordOf off d) (2 ^ i) = parityValue off (clearParity (codewordOf off d)) (2 ^ i) := by
  rw [clearParity_codewordOf, codewordOf_parity hd h]

/-- The data positions of a codeword hold the payload (42_encode.md R163). -/
theorem codewordOf_payload {off : Nat} {d : BitString} (hd : 1 ≤ d.length) :
    (dataPositions (codewordOf off d).length).map (bitAt (codewordOf off d)) = d := by
  rw [codewordOf_length, codewordOf_data hd]

/-- Settles O26: ENCODE ends with the closed form of its result, whose codeword is codewordOf. -/
theorem encodeWritesItsResult : Obligations.EncodeWritesItsResult := by
  unfold Obligations.EncodeWritesItsResult
  intro s d h
  have hd := h.length_pos
  refine ⟨_, codewordOf s.off d, h.execEncode_eq, codewordOf_length _ _, codewordOf_payload hd,
    fun i => codewordOf_parity_clearParity hd, ?_⟩
  rw [encodeResult_eq hd, codewordOf_length]
  exact finish_completesAs s _

/-- A successful ENCODE answers a next state whose codeword is codewordOf (42_encode.md R167). -/
theorem State.encodable.exec_out {s : State} {d : BitString} (h : s.encodable d) :
    ∃ t, exec .encode s = .next t ∧ t.result.out = some (codewordOf s.off d) :=
  ⟨_, h.execEncode_eq, by rw [State.finish_result, encodeResult_eq h.length_pos]⟩

theorem State.off_normative {s : State} (h : s.params.groupRule = .normative) : s.off = 1 := by
  rw [State.off, h, GroupRule.offset]

theorem State.off_textbook {s : State} (h : s.params.groupRule = .textbook) : s.off = 0 := by
  rw [State.off, h, GroupRule.offset]

/-! ### The order of the parity bits -/

/-- The bit at position j of a string that lists a bit per position. -/
theorem bitAt_map_positions {n j : Nat} (f : Nat → Bit) (h1 : 1 ≤ j) (h2 : j ≤ n) :
    bitAt ((List.range' 1 n).map f) j = f j := by
  have hlt : j - 1 < n := by omega
  have hpos : 1 + (j - 1) = j := by omega
  simp [bitAt, List.getD_eq_getElem?_getD, hlt, hpos]

/-- The scan of Group(n, p) starts at p, so it does not matter whether the parity bits below p are cleared
(42_encode.md R164, R173). -/
theorem parityValue_clearParityFrom (off p : Nat) (c : BitString) (hp : 1 ≤ p) :
    parityValue off (clearParityFrom c p) p = parityValue off (clearParity c) p := by
  have hfrom : (clearParityFrom c p).length = c.length := by simp [clearParityFrom]
  have hall : (clearParity c).length = c.length := by simp [clearParity]
  rw [parityValue, parityValue, hfrom, hall]
  refine xorAt_congr fun j hj => ?_
  obtain ⟨hpj, hn, -⟩ := mem_group.1 hj
  have hj1 : 1 ≤ j := Nat.le_trans hp hpj
  rw [clearParityFrom, clearParity, bitAt_map_positions _ hj1 hn, bitAt_map_positions _ hj1 hn, decide_eq_true hpj,
    Bool.and_true]

/-- Settles O27: the group of 2^i starts at 2^i, so the parity bits written before do not count. -/
theorem encodeParityOrder : Obligations.EncodeParityOrder := by
  unfold Obligations.EncodeParityOrder
  intro s d h
  obtain ⟨t, hrun, hout⟩ := h.exec_out
  refine ⟨t, _, hrun, hout, fun i hi => ?_⟩
  have hph := codewordOf_parity_clearParity (off := s.off) h.length_pos hi
  exact ⟨by rw [parityValue_clearParityFrom _ _ _ Nat.one_le_two_pow, hph], hph⟩

/-! ### Closed form and recomputation -/

/-- Settles O28: under the normative rule the group of 2^i, i >= 1, holds no parity position but 2^i. -/
theorem encodeParityClosedForm : Obligations.EncodeParityClosedForm := by
  unfold Obligations.EncodeParityClosedForm
  intro s d h hg
  obtain ⟨t, hrun, hout⟩ := h.exec_out
  rw [State.off_normative hg] at hout
  have hd := h.length_pos
  refine ⟨t, _, hrun, hout, codewordOf_payload hd, ?_, fun i h1 hi => ?_⟩
  · rw [codewordOf_length, ← codewordOf_parity_one hd]
  · rw [codewordOf_length]
    exact (codewordOf_own_group hd hi fun k hk => two_pow_mem_group_normative h1 hk).1

/-- Settles O29: a group that holds its own parity bit and no other XORs to 0; Group(n, 1) holds every parity position
but 1, and the data positions it holds XOR to the bit at 1. -/
theorem recheckedCodeword : Obligations.RecheckedCodeword := by
  unfold Obligations.RecheckedCodeword
  intro s d h
  obtain ⟨t, hrun, hout⟩ := h.exec_out
  have hd := h.length_pos
  refine ⟨t, _, hrun, hout, fun hg => ?_, fun hg i => ?_⟩
  · rw [State.off_normative hg]
    exact ⟨fun i hi => recheck_normative hd hi, recheck_normative_one hd⟩
  · rw [State.off_textbook hg]
    exact recheck_textbook hd

/-! ### Payload bits that no parity bit covers -/

/-- The placeholder codewords of two payloads that fill the data positions of 1..n agree at every parity position, and
at a data position that holds the same bit of both payloads (42_encode.md R163). -/
theorem bitAt_placeholderCodeword_congr {n j : Nat} {d d' : BitString} (hd : (dataPositions n).length = d.length)
    (hd' : (dataPositions n).length = d'.length) (h1 : 1 ≤ j) (h2 : j ≤ n)
    (h : ∀ k : Nat, (dataPositions n)[k]? = some j → d[k]? = d'[k]?) :
    bitAt (placeholderCodeword n d) j = bitAt (placeholderCodeword n d') j := by
  cases hp : isParityPosition j with
  | true =>
    obtain ⟨i, rfl⟩ := (isParityPosition_iff h1).1 hp
    rw [placeholderCodeword_parity d h2, placeholderCodeword_parity d' h2]
  | false =>
    obtain ⟨k, hk⟩ := List.mem_iff_getElem?.1 (mem_dataPositions.2 ⟨h1, h2, hp⟩)
    have hbit : ∀ e : BitString, (dataPositions n).length = e.length →
        e[k]? = some (bitAt (placeholderCodeword n e) j) := by
      intro e he
      conv_lhs => rw [← placeholderCodeword_data he]
      rw [List.getElem?_map, hk, Option.map_some]
    exact Option.some.inj ((hbit d hd).symm.trans ((h k hk).trans (hbit d' hd')))

/-- Settles O30: a position 2^q - 1 lies in no group, so every position that a parity value reads holds 0 in both
placeholder codewords, or the same payload bit. -/
theorem uncoveredPayloadBits : Obligations.UncoveredPayloadBits := by
  unfold Obligations.UncoveredPayloadBits
  intro s u d d' h h' hlen hg hg' hsame
  obtain ⟨t, hrun, hout⟩ := h.exec_out
  obtain ⟨v, hrun', hout'⟩ := h'.exec_out
  rw [State.off_normative hg] at hout
  rw [State.off_normative hg'] at hout'
  refine ⟨t, v, _, _, hrun, hrun', hout, hout', fun i hi => ?_⟩
  have hdata := dataPositions_codeword_length h.length_pos
  rw [codewordOf_parity h.length_pos hi, codewordOf_parity h'.length_pos (hlen ▸ hi), ← hlen, parityValue,
    parityValue, placeholderCodeword_length, placeholderCodeword_length]
  refine xorAt_congr fun j hj => ?_
  obtain ⟨-, hn, -⟩ := mem_group.1 hj
  refine bitAt_placeholderCodeword_congr hdata (hdata.trans hlen) (group_pos j hj) hn fun k hk => ?_
  have hkd : k < d.length := hdata ▸ (List.getElem?_eq_some_iff.1 hk).1
  refine hsame k hkd fun q hq => ?_
  obtain rfl : j = 2 ^ q - 1 := Option.some.inj (hk.symm.trans hq)
  exact notMem_group_uncovered (Nat.sub_add_cancel Nat.one_le_two_pow) hj

end Sys2Proof.Machine

/-! PROOFS. The minimum-distance calculator (43_min_distance.md): the metrics of a payload's length, as ENCODE stores
them and as a host reads them. -/

namespace Sys2Proof.Machine

/-- The metrics of a payload length m with 2^k <= m < 2^(k+1) (43_min_distance.md R200, R201, R202). -/
theorem metrics_of_two_pow_range {m k : Nat} (hlo : 2 ^ k ≤ m) (hhi : m < 2 ^ (k + 1)) :
    minDistance m = k + 1 ∧ detectable m = k ∧ correctable m = k / 2 := by
  have hm : 1 ≤ m := Nat.le_trans Nat.one_le_two_pow hlo
  have hdist : minDistance m = k + 1 := by rw [minDistance, (flog2_eq_iff hm).2 ⟨hlo, hhi⟩]
  rw [detectable, correctable, hdist, Nat.add_sub_cancel]
  exact ⟨rfl, rfl, rfl⟩

/-- Settles O31: ENCODE stores the metrics of the payload's length, and the registers read them. -/
theorem encodeMetrics : Obligations.EncodeMetrics := by
  unfold Obligations.EncodeMetrics
  intro s d k h hlo hhi
  obtain ⟨hhdist, hdetect, hcorrect⟩ := metrics_of_two_pow_range hlo hhi
  refine ⟨_, h.execEncode_eq, hhdist, hdetect, hcorrect, ?_⟩
  simp only [finish_regRead]
  exact ⟨congrArg Word.ofCount hhdist, congrArg Word.ofCount hdetect, congrArg Word.ofCount hcorrect⟩

end Sys2Proof.Machine

/-! PROOFS. DECODE (44_decode.md): its exceptions in their order, its three results, the error position and its bounds,
what a correction does to the payload, and where a fresh codeword and a codeword with one flipped bit decode to. -/

namespace Sys2Proof.Machine

/-! ### The exceptions -/

/-- An exception of the common checks ends DECODE, and nothing else of it runs (60_exceptions.md R276, R277). -/
theorem exec_decode_of_check_error {s : State} {c : ResultCode}
    (h : checkInput s.params.maxLen s.inputLength s.inputSymbol = .error c) :
    exec .decode s = .next (s.takeException c) := by
  rw [exec, execDecode, decodeOp, h, State.finishTry]

theorem State.decodable.exec_eq {s : State} {b : BitString} (h : s.decodable b) :
    exec .decode s = .next (s.finish (decodeResult s.off b)) := h.execDecode_eq

/-- Settles O14: the checks answer at most one exception, and what passes them gets one of the three results. -/
theorem decodeExceptionsInOrder : Obligations.DecodeExceptionsInOrder := by
  unfold Obligations.DecodeExceptionsInOrder
  intro s
  rcases checkInput_cases s with ⟨h0, h⟩ | ⟨h0, hm, h⟩ | ⟨h0, hm, hv, h⟩ | ⟨b, hb, hne, hm, -⟩
  · refine ⟨_, exec_decode_of_check_error h, ?_⟩
    simp [h0]
  · refine ⟨_, exec_decode_of_check_error h, ?_⟩
    simp [h0, hm, Nat.not_le.2 hm]
  · refine ⟨_, exec_decode_of_check_error h, ?_⟩
    simp [h0, hv, Nat.not_lt.2 hm]
  · have h0 : b.length ≠ 0 := by simpa using hne
    have hd : s.decodable b := ⟨hb, hne, hm⟩
    rw [hb.1]
    exact ⟨_, hd.exec_eq, fun hz => absurd hz h0, fun hl => absurd hm (Nat.not_le.2 hl),
      fun _ _ hv => absurd hb.symbolsValid hv, fun _ _ _ => decodeResult_code s.off b⟩

/-! ### What the result depends on -/

/-- The checks read the length and the symbols below it (30_encoding.md R83). -/
theorem checkInput_congr {f g : Nat → Byte} {len : Nat} (maxLen : Nat) (h : ∀ k, k < len → f k = g k) :
    checkInput maxLen len f = checkInput maxLen len g := by
  rw [checkInput, checkInput, inputBits_congr h]

/-- ENCODE reads GROUP_OFFSET, MAX_LEN, the length and the symbols below it (42_encode.md R171). -/
theorem encodeOp_congr {p q : Params} {f g : Nat → Byte} {len : Nat} (hg : p.groupRule = q.groupRule)
    (hm : p.maxLen = q.maxLen) (h : ∀ k, k < len → f k = g k) : encodeOp p len f = encodeOp q len g := by
  rw [encodeOp, encodeOp, hg, hm, checkInput_congr _ h]

/-- DECODE reads GROUP_OFFSET, MAX_LEN, the length and the symbols below it (44_decode.md R249). -/
theorem decodeOp_congr {p q : Params} {f g : Nat → Byte} {len : Nat} (hg : p.groupRule = q.groupRule)
    (hm : p.maxLen = q.maxLen) (h : ∀ k, k < len → f k = g k) : decodeOp p len f = decodeOp q len g := by
  rw [decodeOp, decodeOp, hg, hm, checkInput_congr _ h]

/-- The result a completion writes is the operation's, in any state. -/
theorem finishTry_result_congr (s u : State) (x : Except ResultCode ResultState) :
    (s.finishTry x).result = (u.finishTry x).result := by
  cases x <;> rfl

/-- Settles O18: each operation is a function of those operands, and its outcome is the whole result written. -/
theorem resultDependsOnOperandsOnly : Obligations.ResultDependsOnOperandsOnly := by
  unfold Obligations.ResultDependsOnOperandsOnly
  intro i s u hg hm hl hs
  have hlen : s.inputLength = u.inputLength := congrArg BitVec.toNat hl
  have hsym : ∀ k, k < s.inputLength → s.inputSymbol k = u.inputSymbol k := hs
  cases i with
  | encode =>
    refine ⟨_, _, rfl, rfl, ?_⟩
    rw [← hlen, ← encodeOp_congr hg hm hsym]
    exact finishTry_result_congr s u _
  | decode =>
    refine ⟨_, _, rfl, rfl, ?_⟩
    rw [← hlen, ← decodeOp_congr hg hm hsym]
    exact finishTry_result_congr s u _

/-! ### The three results -/

/-- The result of a DECODE as one choice by the error position (44_decode.md R227, R231, R232). -/
theorem decodeResult_eq (off : Nat) (b : BitString) :
    decodeResult off b =
      if b.length < errorPosition off b then
        { code := .uncorrectable, error := true, out := none, errPos := errorPosition off b, orig := some b
          corr := none, ptab := checkTable off b, hdist := 0, detect := 0, correct := 0
          log := checkEvents off b ++ [.uncorrectable (errorPosition off b)] }
      else if errorPosition off b = 0 then
        { code := .ok, error := false, out := some ((dataPositions b.length).map (bitAt b)), errPos := 0, orig := none
          corr := none, ptab := checkTable off b, hdist := 0, detect := 0, correct := 0, log := checkEvents off b }
      else
        { code := .corrected, error := false
          out := some ((dataPositions b.length).map (bitAt (flipBit b (errorPosition off b))))
          errPos := errorPosition off b, orig := some b, corr := some (flipBit b (errorPosition off b))
          ptab := checkTable off b, hdist := 0, detect := 0, correct := 0
          log := checkEvents off b ++ [.correct (errorPosition off b)] } := by
  rcases errorPosition_cases off b with h | h | ⟨h0, h⟩
  · rw [if_pos h, decodeResult_uncorrectable h]
  · rw [if_neg (h ▸ Nat.not_lt_zero _), if_pos h, decodeResult_ok h]
  · rw [if_neg (Nat.not_lt.2 h), if_neg h0, decodeResult_corrected h0 h]

/-- Settles O33: K = flog2(L), so the K + 1 checks are those of DECODE. -/
theorem decodeWritesItsResult : Obligations.DecodeWritesItsResult := by
  unfold Obligations.DecodeWritesItsResult
  intro s b K h hlo hhi
  obtain rfl : flog2 b.length = K := (flog2_eq_iff h.length_pos).2 ⟨hlo, hhi⟩
  refine ⟨_, h.exec_eq, ?_⟩
  rw [decodeResult_eq]
  exact finish_completesAs s _

/-! ### The error position -/

/-- Settles O34: ERRPOS is the sum of the failing parity positions, whose digits are the syndrome bits. -/
theorem errorPositionDigits : Obligations.ErrorPositionDigits := by
  unfold Obligations.ErrorPositionDigits
  intro s b h
  refine ⟨_, h.exec_eq, ?_⟩
  rw [State.finish_result, decodeResult_errPos]
  exact ⟨rfl, fun i => errorPosition_testBit h.length_pos⟩

/-- 44_decode.md R227. -/
theorem decodeResult_code_eq_uncorrectable_iff {off : Nat} {b : BitString} :
    (decodeResult off b).code = .uncorrectable ↔ b.length < errorPosition off b := by
  rcases errorPosition_cases off b with h | h | ⟨h0, h⟩
  · simp [decodeResult_uncorrectable h, h]
  · simp [decodeResult_ok h, h]
  · simp [decodeResult_corrected h0 h, Nat.not_lt.2 h]

/-- Settles O35: K checks sum to less than 2^K <= 2L, and only a sum beyond L is UNCORRECTABLE. -/
theorem errorPositionBounds : Obligations.ErrorPositionBounds := by
  unfold Obligations.ErrorPositionBounds
  intro s b h
  have hK := errorPosition_lt s.off b
  have htwice := errorPosition_lt_twice (off := s.off) h.length_pos
  have hmax : b.length ≤ s.params.maxLen := h.2.2
  refine ⟨_, h.exec_eq, ?_⟩
  rw [State.finish_result, decodeResult_errPos, Ne, decodeResult_code_eq_uncorrectable_iff]
  exact ⟨by omega, htwice, by omega, fun _ => by omega, fun _ => by omega, Iff.rfl⟩

/-! ### Corrections -/

/-- A flip changes the bit at its position alone. -/
theorem bitAt_flipBit {c : BitString} {i j : Nat} (hj : 1 ≤ j) (hjn : j ≤ c.length) (hi : 1 ≤ i) :
    bitAt (flipBit c j) i = if i = j then !bitAt c i else bitAt c i := by
  split
  case isTrue h => rw [h, flipBit, bitAt_setBit_same hj hjn]
  case isFalse h => rw [flipBit, bitAt_setBit_other hj hi h]

/-- The payload bits after a flip (44_decode.md R252). -/
theorem payload_flipBit {b : BitString} {e : Nat} (h1 : 1 ≤ e) (h2 : e ≤ b.length) (n : Nat) :
    (dataPositions n).map (bitAt (flipBit b e)) =
      (dataPositions n).map fun j => if j = e then !bitAt b j else bitAt b j :=
  List.map_congr_left fun _ hj => bitAt_flipBit h1 h2 (mem_dataPositions.1 hj).1

/-- A flip of a parity bit leaves the payload bits (44_decode.md R251). -/
theorem payload_flipBit_parity {b : BitString} {e : Nat} (h1 : 1 ≤ e) (h2 : e ≤ b.length)
    (hp : isParityPosition e = true) (n : Nat) :
    (dataPositions n).map (bitAt (flipBit b e)) = (dataPositions n).map (bitAt b) := by
  rw [payload_flipBit h1 h2]
  refine List.map_congr_left fun j hj => if_neg ?_
  rintro rfl
  obtain ⟨-, -, hdata⟩ := mem_dataPositions.1 hj
  simp [hp] at hdata

/-- Settles O37: DECODE corrects position e, which is a parity position or a data position. -/
theorem correctionAndPayload : Obligations.CorrectionAndPayload := by
  unfold Obligations.CorrectionAndPayload
  intro s b h
  refine ⟨_, h.exec_eq, ?_⟩
  rw [State.finish_result, decodeResult_errPos]
  intro h1 h2
  rw [decodeResult_corrected (Nat.ne_of_gt h1) h2]
  exact ⟨rfl, rfl, fun hp => congrArg some (payload_flipBit_parity h1 h2 hp _),
    fun hp => ⟨congrArg some (payload_flipBit h1 h2 _), mem_dataPositions.2 ⟨h1, h2, hp⟩⟩⟩

/-! ### Fresh codewords -/

/-- A string of a fresh codeword's length fits every block with ENCODE's parameters (42_encode.md R170). -/
theorem State.encodable.decodable {s u : State} {d c : BitString} (h : s.encodable d) (hp : u.params = s.params)
    (hu : u.hasInput c) (hc : c.length = d.length + requiredParityBits d.length) : u.decodable c := by
  obtain ⟨-, hne, hfit⟩ := h
  refine ⟨hu, ?_, ?_⟩
  · rintro rfl
    exact hne (List.length_eq_zero_iff.1 (Nat.eq_zero_of_add_eq_zero_right hc.symm))
  · rw [hp, hc]
    exact hfit

theorem State.off_congr {s u : State} (h : u.params = s.params) : u.off = s.off := by
  rw [State.off, State.off, h]

/-- DECODE of a string of a fresh codeword's length, on a block with ENCODE's parameters, passes its checks. -/
theorem State.encodable.exec_decode {s u : State} {d c : BitString} (h : s.encodable d) (hp : u.params = s.params)
    (hu : u.hasInput c) (hc : c.length = d.length + requiredParityBits d.length) :
    exec .decode u = .next (u.finish (decodeResult s.off c)) := by
  rw [(h.decodable hp hu hc).exec_eq, State.off_congr hp]

theorem codewordOf_length_pos (off : Nat) {d : BitString} (hd : 1 ≤ d.length) : 1 ≤ (codewordOf off d).length := by
  rw [codewordOf_length]
  exact Nat.le_add_right_of_le hd

/-- Under the normative rule the only check of a fresh codeword that can fail is that of p = 1 (44_decode.md R246). -/
theorem errorPosition_codewordOf_normative {d : BitString} (hd : 1 ≤ d.length) :
    errorPosition 1 (codewordOf 1 d) =
      (xorAt (codewordOf 1 d) (parityPositions (requiredParityBits d.length))).toNat := by
  refine Nat.eq_of_testBit_eq fun i => ?_
  rw [errorPosition_testBit' (codewordOf_length_pos 1 hd), Nat.testBit_bool_toNat]
  cases i with
  | zero => simp [recheck_normative_one hd]
  | succ i => simp [recheck_normative hd]

/-- Under the textbook rule no check of a fresh codeword fails (44_decode.md R248). -/
theorem errorPosition_codewordOf_textbook {d : BitString} (hd : 1 ≤ d.length) :
    errorPosition 0 (codewordOf 0 d) = 0 := by
  refine Nat.eq_of_testBit_eq fun i => ?_
  rw [errorPosition_testBit' (codewordOf_length_pos 0 hd), recheck_textbook hd, Nat.zero_testBit]

/-- Settles O38: the error position is 0, or 1, where the correction flips a parity bit. -/
theorem roundTripRecoversPayload : Obligations.RoundTripRecoversPayload := by
  unfold Obligations.RoundTripRecoversPayload
  intro s d h hg
  obtain ⟨t, hrun, hout⟩ := h.exec_out
  refine ⟨t, _, hrun, hout, fun u hp hu => ⟨_, h.exec_decode hp hu (codewordOf_length _ _), ?_⟩⟩
  have hd := h.length_pos
  have hn := codewordOf_length_pos 1 hd
  have he := errorPosition_codewordOf_normative hd
  rw [State.off_normative hg, State.finish_result, decodeResult_errPos]
  cases hx : xorAt (codewordOf 1 d) (parityPositions (requiredParityBits d.length)) with
  | false =>
    have he0 : errorPosition 1 (codewordOf 1 d) = 0 := by rw [he, hx]; rfl
    rw [decodeResult_ok he0, codewordOf_payload hd]
    simp [he0]
  | true =>
    have he1 : errorPosition 1 (codewordOf 1 d) = 1 := by rw [he, hx]; rfl
    rw [decodeResult_corrected (by omega) (by omega), he1,
      payload_flipBit_parity (Nat.le_refl 1) hn (isParityPosition_two_pow 0), codewordOf_payload hd]
    simp

/-! ### One flipped bit -/

/-- A flip of position j changes the error position by the number g whose binary digits are the groups that contain j
(44_decode.md R247). -/
theorem errorPosition_flipBit {off j g : Nat} {c : BitString} (h1 : 1 ≤ j) (h2 : j ≤ c.length)
    (hg : ∀ i, j ∈ group off c.length (2 ^ i) ↔ g.testBit i = true) :
    errorPosition off (flipBit c j) = errorPosition off c ^^^ g := by
  refine Nat.eq_of_testBit_eq fun i => ?_
  rw [errorPosition_flipBit_testBit h1 h2, Nat.testBit_xor, Bool.eq_iff_iff.2 (decide_eq_true_iff.trans (hg i))]

/-- A flip of an uncovered position changes no check (44_decode.md R247). -/
theorem errorPosition_flipBit_uncovered {j : Nat} {c : BitString} (h1 : 1 ≤ j) (h2 : j ≤ c.length)
    (h : ∃ q, j + 1 = 2 ^ q) : errorPosition 1 (flipBit c j) = errorPosition 1 c := by
  obtain ⟨q, hq⟩ := h
  have hg := errorPosition_flipBit (off := 1) (g := 0) h1 h2 fun i => by simp [notMem_group_uncovered hq]
  rw [hg, Nat.xor_zero]

/-- A flip of a covered position j changes the error position by j + 1 (44_decode.md R247). -/
theorem errorPosition_flipBit_covered {j : Nat} {c : BitString} (h1 : 1 ≤ j) (h2 : j ≤ c.length)
    (h : ∀ q, j + 1 ≠ 2 ^ q) : errorPosition 1 (flipBit c j) = errorPosition 1 c ^^^ (j + 1) :=
  errorPosition_flipBit h1 h2 fun _ => mem_group_normative h2 h

/-- Under the textbook rule a flip of j changes the error position by j (44_decode.md R248). -/
theorem errorPosition_flipBit_textbook {j : Nat} {c : BitString} (h1 : 1 ≤ j) (h2 : j ≤ c.length) :
    errorPosition 0 (flipBit c j) = errorPosition 0 c ^^^ j :=
  errorPosition_flipBit h1 h2 fun _ => mem_group_textbook h2

/-- A flip located at its own position is undone by the correction. -/
theorem decodeResult_flipBit_located {off j : Nat} {c : BitString} (h1 : 1 ≤ j) (h2 : j ≤ c.length)
    (he : errorPosition off (flipBit c j) = j) :
    (decodeResult off (flipBit c j)).code = .corrected ∧
    (decodeResult off (flipBit c j)).out = some ((dataPositions c.length).map (bitAt c)) ∧
    (decodeResult off (flipBit c j)).corr = some c := by
  rw [decodeResult_corrected (by omega) (by rw [he, flipBit_length]; exact h2), he, flipBit_flipBit h1 h2,
    flipBit_length]
  exact ⟨rfl, rfl, rfl⟩

/-- Settles O40: under the textbook rule the error position of a fresh codeword is 0, and a flip of j moves it to j. -/
theorem textbookCodeCorrectsEverySingleFlip : Obligations.TextbookCodeCorrectsEverySingleFlip := by
  unfold Obligations.TextbookCodeCorrectsEverySingleFlip
  intro s d h hg
  obtain ⟨t, hrun, hout⟩ := h.exec_out
  have hd := h.length_pos
  have he := errorPosition_codewordOf_textbook hd
  have hoff := State.off_textbook hg
  refine ⟨t, _, hrun, hout, fun u hp hu => ?_, fun u j hp h1 h2 hu => ?_⟩
  · refine ⟨_, h.exec_decode hp hu (codewordOf_length _ _), ?_⟩
    rw [hoff, State.finish_result, decodeResult_ok he, codewordOf_payload hd]
    exact ⟨rfl, rfl, rfl⟩
  · refine ⟨_, h.exec_decode hp hu (by rw [flipBit_length, codewordOf_length]), ?_⟩
    rw [hoff] at h2 ⊢
    have hej : errorPosition 0 (flipBit (codewordOf 0 d) j) = j := by
      rw [errorPosition_flipBit_textbook h1 h2, he, Nat.zero_xor]
    obtain ⟨hcode, hpayload, hcorr⟩ := decodeResult_flipBit_located h1 h2 hej
    rw [codewordOf_payload hd] at hpayload
    exact ⟨hcode, (decodeResult_errPos _ _).trans hej, hpayload, hcorr⟩

/-- j + 1 XORed to 0 or 1, for even j (44_decode.md R247). -/
theorem xor_succ_of_even {e j : Nat} (he : e = 0 ∨ e = 1) (h : j % 2 = 0) :
    e ^^^ (j + 1) = if e = 0 then j + 1 else j := by
  rcases he with rfl | rfl
  · rw [Nat.zero_xor, if_pos rfl]
  · rw [Nat.xor_comm, Nat.xor_one_of_odd (Nat.odd_iff.2 (by omega)), Nat.add_sub_cancel, if_neg Nat.one_ne_zero]

/-- j + 1 XORed to 0 or 1, for odd j (44_decode.md R247). -/
theorem xor_succ_of_odd {e j : Nat} (he : e = 0 ∨ e = 1) (h : j % 2 = 1) :
    e ^^^ (j + 1) = if e = 0 then j + 1 else j + 2 := by
  rcases he with rfl | rfl
  · rw [Nat.zero_xor, if_pos rfl]
  · rw [Nat.xor_comm, Nat.xor_one_of_even (Nat.even_iff.2 (by omega)), if_neg Nat.one_ne_zero]

/-- For even j >= 1 the number j + 1 is odd and above 1, so no power of two (44_decode.md R247). -/
theorem succ_ne_two_pow_of_even {j : Nat} (h1 : 1 ≤ j) (h : j % 2 = 0) (q : Nat) : j + 1 ≠ 2 ^ q := by
  cases q with
  | zero => rw [Nat.pow_zero]; omega
  | succ q => rw [Nat.pow_succ]; omega

/-- A flip of j is located at j exactly when the error position was 1 and j is 1 or even: e0 is the error position
before, e the one after (44_decode.md R247). -/
theorem flip_located_iff {e0 e j : Nat} (he0 : e0 = 0 ∨ e0 = 1) (h1 : 1 ≤ j)
    (huncov : (∃ q, j + 1 = 2 ^ q) → e = e0) (heven : j % 2 = 0 → e = if e0 = 0 then j + 1 else j)
    (hodd : j % 2 = 1 → (∀ q, j + 1 ≠ 2 ^ q) → e = if e0 = 0 then j + 1 else j + 2) :
    e = j ↔ e0 = 1 ∧ (j = 1 ∨ j % 2 = 0) := by
  rcases Nat.mod_two_eq_zero_or_one j with hj | hj
  · have he := heven hj
    split at he <;> omega
  by_cases hq : ∃ q, j + 1 = 2 ^ q
  · have he := huncov hq
    omega
  · have hne : j ≠ 1 := fun hj1 => hq ⟨1, by omega⟩
    have he := hodd hj (not_exists.1 hq)
    split at he <;> omega

/-- Settles O39: the fresh codeword's error position is 0 or 1, a flip of j leaves it or XORs j + 1 to it, and a flip
located at j is undone. -/
theorem singleFlipLaw : Obligations.SingleFlipLaw := by
  unfold Obligations.SingleFlipLaw
  intro s d h hg
  obtain ⟨t, hrun, hout⟩ := h.exec_out
  have hoff := State.off_normative hg
  refine ⟨t, _, hrun, hout, fun u0 hp0 hu0 => ⟨_, h.exec_decode hp0 hu0 (codewordOf_length _ _), ?_⟩⟩
  intro e0 u j hp h1 h2 hu
  refine ⟨_, h.exec_decode hp hu (by rw [flipBit_length, codewordOf_length]), ?_⟩
  have he0 : e0 = errorPosition 1 (codewordOf 1 d) := by
    rw [← hoff]; exact decodeResult_errPos _ _
  rw [hoff] at h2 ⊢
  have he01 : e0 = 0 ∨ e0 = 1 := by
    rw [he0, errorPosition_codewordOf_normative h.length_pos]
    exact Nat.le_one_iff_eq_zero_or_eq_one.1 (Bool.toNat_le _)
  rw [State.finish_result, decodeResult_errPos]
  have huncov := errorPosition_flipBit_uncovered h1 h2
  have hcov := errorPosition_flipBit_covered h1 h2
  rw [← he0] at huncov hcov
  have heven := fun hj => (hcov (succ_ne_two_pow_of_even h1 hj)).trans (xor_succ_of_even he01 hj)
  have hodd := fun hj hq => (hcov hq).trans (xor_succ_of_odd he01 hj)
  refine ⟨huncov, hcov, heven, hodd, flip_located_iff he01 h1 huncov heven hodd, fun hej => ?_⟩
  obtain ⟨-, -, hcorr⟩ := decodeResult_flipBit_located h1 h2 hej
  exact hcorr

end Sys2Proof.Machine

/-! PROOFS. The exceptions (60_exceptions.md): the completion a step runs and its checks in their order, what an
exception leaves in the result state, how long a result stays, that no well-formed host program gets stuck and every
operation in flight completes, and that the blocks of a platform share nothing. -/

namespace Sys2Proof.Machine

/-! ### The completion that a step runs -/

/-- Settles O6: the core's step is the completion of the ticked state, whose CTRL.OP is the state's. -/
theorem stepRunsOperationInFlight : Obligations.StepRunsOperationInFlight := by
  unfold Obligations.StepRunsOperationInFlight
  intro s h u
  have hstep : step s = complete u := step_core h
  rw [hstep]
  exact ⟨rfl, fun hop => complete_of_op (i := .encode) hop, fun hop => complete_of_op (i := .decode) hop,
    fun hop => ⟨_, complete_reserved hop, rfl⟩⟩

/-- Settles O11: the START stores the reserved value, and the completion reads no operand before it refuses it. -/
theorem reservedOpCompletesIllegal : Obligations.ReservedOpCompletesIllegal := by
  unfold Obligations.ReservedOpCompletesIllegal
  intro s v hb hv hop
  rw [regWrite_ctrl_start hb hv]
  exact ⟨rfl, fun n m => ⟨_, complete_reserved hop, finish_completesAs _ _, rfl⟩⟩

/-- Whatever a completion answers is a completion with the result it then holds (60_exceptions.md R276). -/
theorem completesAs_of_complete {s t : State} (h : complete s = .next t) : s.completesAs t t.result := by
  obtain ⟨r, hr⟩ := complete_eq_finish s
  obtain rfl : s.finish r = t := by rw [hr] at h; injection h
  exact finish_completesAs s r

theorem op_reserved_or_defined : ∀ op : BitVec 2, (op = 0b00#2 ∨ op = 0b11#2) ∨ op = 0b01#2 ∨ op = 0b10#2 := by decide

/-- Settles O12: a reserved OP is refused first; the checks of ENCODE and of DECODE come in the order of R276 as their
own statements say. -/
theorem completionChecksInOrder : Obligations.CompletionChecksInOrder := by
  unfold Obligations.CompletionChecksInOrder
  intro s _
  rcases op_reserved_or_defined s.ctrlOp with hres | hop | hop
  · refine ⟨_, complete_reserved hres, finish_completesAs _ _, ?_⟩
    rcases hres with hop | hop <;> simp [hop]
  · obtain ⟨t, hrun, hzero, hlong, hbad, hfull, hok⟩ := encodeExceptionsInOrder s
    have hc : complete s = .next t := (complete_of_op (i := .encode) hop).trans hrun
    refine ⟨t, hc, completesAs_of_complete hc, fun _ => hrun, by simp [hop], fun h => absurd hop h,
      fun _ => ⟨hzero, fun h0 hm => hlong hm h0, hbad, fun h0 hm hv => ?_⟩⟩
    split_ifs with hn
    · exact hfull h0 hm hv hn.2
    · simp [hok h0 hm hv (Nat.not_lt.1 fun hlt => hn ⟨hop, hlt⟩)]
  · obtain ⟨t, hrun, hzero, hlong, hbad, hdone⟩ := decodeExceptionsInOrder s
    have hc : complete s = .next t := (complete_of_op (i := .decode) hop).trans hrun
    refine ⟨t, hc, completesAs_of_complete hc, by simp [hop], fun _ => hrun, fun _ h => absurd hop h,
      fun _ => ⟨hzero, fun h0 hm => hlong hm h0, hbad, fun h0 hm hv => ?_⟩⟩
    rw [if_neg (by simp [hop])]
    simpa using hdone h0 hm hv

/-! ### What an exception leaves -/

/-- Ending an operation replaces the result state, so the one before does not count (60_exceptions.md R277). -/
theorem finishTry_withResult (s : State) (r : ResultState) (x : Except ResultCode ResultState) :
    { s with result := r }.finishTry x = s.finishTry x := by
  cases x <;> rfl

theorem complete_withResult (s : State) (r : ResultState) : complete { s with result := r } = complete s := by
  unfold complete
  cases instrOfOp s.ctrlOp with
  | none => rfl
  | some i =>
    cases i with
    | encode => exact congrArg Host.Outcome.next (finishTry_withResult s r _)
    | decode => exact congrArg Host.Outcome.next (finishTry_withResult s r _)

/-- A completion whose code is an exception's is that exception taken: no operation that passes its checks writes such
a code (60_exceptions.md R277). -/
theorem complete_exception {s t : State} (h : complete s = .next t) (hc : t.result.code.IsException) :
    t = s.takeException t.result.code := by
  obtain ⟨hok, hcorrected, huncorrectable⟩ := hc.not_success
  obtain ⟨r, hr, hcases⟩ := complete_cases s
  obtain rfl : s.finish r = t := by rw [hr] at h; injection h
  rcases hcases with ⟨c, -, rfl⟩ | ⟨d, -, rfl⟩ | ⟨b, -, rfl⟩
  · rfl
  · exact absurd rfl hok
  · rcases decodeResult_code s.off b with hd | hd | hd
    · exact absurd hd hok
    · exact absurd hd hcorrected
    · exact absurd hd huncorrectable

/-- STATUS of an exception's code is DONE and the code in bits 6:4 (10_state.md R26). -/
theorem ResultCode.IsException.doneStatus_eq {c : ResultCode} (h : c.IsException) :
    doneStatus c = BitVec.ofNat 32 (2 + 16 * c.number) := by
  rcases h with rfl | rfl | rfl <;> rfl

/-- No element of Empty(code) is valid (10_state.md R46). -/
theorem empty_elem (c : ResultCode) (e : ElemRef) : (ResultState.empty c).elem e = none := by
  cases e with
  | elem b k => cases b <;> rfl
  | aff t j => rfl

/-- Every result register reads 0 of Empty(code) (10_state.md R46). -/
theorem takeException_regRead (s : State) (c : ResultCode) {r : Reg}
    (hr : r ∈ [Reg.outLen, .npar, .hdist, .detect, .correct, .errPos, .edLen, .logCnt]) :
    ((s.takeException c).regRead r).1 = 0 := by
  rw [State.takeException, finish_regRead]
  simp only [List.mem_cons, List.not_mem_nil, or_false] at hr
  rcases hr with rfl | rfl | rfl | rfl | rfl | rfl | rfl | rfl <;> rfl

/-- Settles O15: a completion with an exception's code is State.takeException, and what it writes is Empty(code). -/
theorem exceptionLeavesNothing : Obligations.ExceptionLeavesNothing := by
  unfold Obligations.ExceptionLeavesNothing
  intro s t h
  refine ⟨fun r => (complete_withResult s r).trans h, fun hc => ?_⟩
  have hstatus := finish_status s (empty_flags _ (ResultCode.IsException.not_success hc))
  rw [complete_exception h hc]
  exact ⟨rfl, fun r => takeException_regRead s _, rfl, rfl, rfl, rfl,
    hstatus.trans (ResultCode.IsException.doneStatus_eq hc), empty_elem _⟩

/-! ### How long a result stays -/

/-- While not busy, and with no reset arriving, the host moves (log 3). -/
theorem step_idle {s : State} (hr : s.resetArrives = false) (hb : s.busy = false) :
    step s = hostStep s.tick.spendLatency := by
  rcases step_cases s with ⟨harr, -⟩ | ⟨⟨-, hbusy, -⟩, -⟩ | ⟨-, -, hhost⟩
  · simp [hr] at harr
  · simp [hb] at hbusy
  · exact hhost

/-- Settles O53: the step is a host line, whose frame holds the result state; reads have the same frame. -/
theorem resultPersists : Obligations.ResultPersists := by
  unfold Obligations.ResultPersists
  refine ⟨fun s t hstep hr hb => ?_, fun s r e => ⟨(HostFrame.regRead s r).result, (HostFrame.bufRead s e).result⟩,
    fun s v hb hv => ?_⟩
  · have frame := HostFrame.hostStep ((step_idle hr hb).symm.trans hstep)
    exact ⟨frame.result, frame.phase hb⟩
  · rw [regWrite_ctrl_start hb hv]

/-! ### Steps go on -/

/-- A host program stays well formed where it and the parameters stay the same. -/
theorem State.hostWf.congr {s t : State} (h : s.hostWf) (hprogram : t.host.program = s.host.program)
    (hparams : t.params = s.params) : t.hostWf := by
  rw [State.hostWf, hprogram, hparams]
  exact h

/-- A well-formed host program has a next state at every step, whoever moves (20_memory.md R77, 60_exceptions.md
R285). -/
theorem step_next {s : State} (h : s.hostWf) :
    ∃ t, step s = .next t ∧ t.host.program = s.host.program ∧ t.params = s.params := by
  rcases step_cases s with ⟨-, hreset⟩ | ⟨-, hcore⟩ | ⟨-, -, hhost⟩
  · exact ⟨_, hreset, rfl, rfl⟩
  · obtain ⟨r, hr⟩ := complete_eq_finish s.tick
    exact ⟨_, hcore.trans hr, rfl, rfl⟩
  · obtain ⟨t, ht⟩ := hostStep_next (s := s.tick.spendLatency) h
    have frame := HostFrame.hostStep ht
    exact ⟨t, hhost.trans ht, frame.program, frame.params⟩

/-- Settles O57: there is no fault to answer, and no step changes the program or the parameters. -/
theorem stepAlwaysGoesOn : Obligations.StepAlwaysGoesOn := by
  unfold Obligations.StepAlwaysGoesOn
  refine ⟨fun _ f => (nomatch f), fun s h => ?_⟩
  obtain ⟨t, hstep, hprogram, hparams⟩ := step_next h
  exact ⟨t, hstep, h.congr hprogram hparams, hprogram, hparams⟩

/-! ### Operations in flight complete -/

/-- What a completion reads is in t as in s: CTRL.OP, the operands and the parameters (60_exceptions.md R276; for
resetDraw log 5). -/
structure State.SameOperands (s t : State) : Prop where
  params : t.params = s.params
  ctrlOp : t.ctrlOp = s.ctrlOp
  inLen : t.inLen = s.inLen
  inBuf : t.inBuf = s.inBuf
  resetDraw : t.resetDraw = s.resetDraw

theorem State.SameOperands.trans {s t u : State} (h1 : s.SameOperands t) (h2 : t.SameOperands u) :
    s.SameOperands u where
  params := h2.params.trans h1.params
  ctrlOp := h2.ctrlOp.trans h1.ctrlOp
  inLen := h2.inLen.trans h1.inLen
  inBuf := h2.inBuf.trans h1.inBuf
  resetDraw := h2.resetDraw.trans h1.resetDraw

theorem State.SameOperands.complete_result {s t : State} (h : s.SameOperands t) :
    ∃ v w, complete s = .next v ∧ complete t = .next w ∧ w.result = v.result := by
  obtain ⟨w, v, hw, hv, hresult⟩ :=
    complete_result_congr h.params h.inLen h.ctrlOp (inputSymbol_congr h.inBuf h.resetDraw)
  exact ⟨v, w, hv, hw, hresult⟩

/-- With no reset to come a tick changes nothing. -/
theorem tick_of_resets_nil {s : State} (h : s.resets = []) : s.tick = s := by
  have hcountdown : countdown s.resets = s.resets := by rw [h, countdown]
  rw [State.tick, hcountdown]

/-- A step of an operation in flight, with no reset to come, completes it or spends one step of its latency and keeps
what the completion reads (20_memory.md R68, 70_reset_and_hazards.md R321). -/
theorem step_in_flight {s t : State} (hb : s.busy = true) (hr : s.resets = []) (h : step s = .next t) :
    complete s = .next t ∨
    (t.busy = true ∧ t.resets = [] ∧ t.latency + 1 = s.latency ∧ s.SameOperands t) := by
  rcases step_cases s with ⟨harr, -⟩ | ⟨-, hcore⟩ | ⟨-, hwait, hhost⟩
  · simp [State.resetArrives, hr] at harr
  · rw [tick_of_resets_nil hr] at hcore
    exact .inl (hcore.symm.trans h)
  · rw [tick_of_resets_nil hr] at hhost
    have frame := HostFrame.hostStep (hhost.symm.trans h)
    obtain ⟨hbusy, -, hop, hlen, hbuf, hlatency⟩ := frame.locked hb
    obtain ⟨hpos, -⟩ := hwait hb
    rw [State.spendLatency_latency] at hlatency
    exact .inr ⟨hbusy, frame.resets.trans hr, by omega, frame.params, hop, hlen, hbuf, frame.resetDraw⟩

/-- An operation in flight ends within its latency as the completion of its start would end it, whatever the host does
meanwhile (60_exceptions.md R285, 70_reset_and_hazards.md R321). -/
theorem run_completes {s : State} (hb : s.busy = true) (hr : s.resets = []) (hwf : s.hostWf) :
    ∃ k t u, k ≤ s.latency ∧ complete s = .next t ∧ Sys2Proof.core.run (k + 1) s = .next u ∧
      u.busy = false ∧ u.done = true ∧ u.result = t.result ∧ s.SameOperands u := by
  induction hn : s.latency using Nat.strong_induction_on generalizing s with
  | _ n ih =>
    obtain ⟨s', hstep, hprogram, hparams⟩ := step_next hwf
    have hrun : ∀ k, Sys2Proof.core.run (k + 1) s = Sys2Proof.core.run k s' := fun _ => run_next hstep
    rcases step_in_flight hb hr hstep with hc | ⟨hb', hr', hlatency, hsame⟩
    · obtain ⟨hbusy, hdone, -, frame⟩ := completesAs_of_complete hc
      exact ⟨0, s', s', Nat.zero_le _, hc, hrun 0, hbusy, hdone, rfl,
        ⟨frame.params, frame.ctrlOp, frame.inLen, frame.inBuf, frame.resetDraw⟩⟩
    · obtain ⟨k, t', u, hk, hc', hrun', hbusy, hdone, hresult, hsame'⟩ :=
        ih s'.latency (by omega) hb' hr' (hwf.congr hprogram hparams) rfl
      obtain ⟨t, w, hc, hw, hcongr⟩ := hsame.complete_result
      obtain rfl : w = t' := by rw [hw] at hc'; injection hc'
      exact ⟨k + 1, t, u, by omega, hc, (hrun _).trans hrun', hbusy, hdone, hresult.trans hcongr,
        hsame.trans hsame'⟩

/-- Settles O58: by induction on the latency, which every step of the host spends while it leaves the operands. -/
theorem everyStartCompletes : Obligations.EveryStartCompletes := by
  unfold Obligations.EveryStartCompletes
  intro s hb hr hwf
  obtain ⟨k, t, u, hk, hc, hrun, hbusy, hdone, hresult, hsame⟩ := run_completes hb hr hwf
  exact ⟨k, t, u, hk, hc, fun i hop => (complete_of_op hop).symm.trans hc, hrun, hbusy, hdone, hresult, hsame.ctrlOp,
    hsame.inLen, hsame.inBuf⟩

/-! ### Blocks of a platform -/

/-- Everything a step of block k does to a platform (60_exceptions.md R288). -/
theorem Platform.stepAt_some {p q : Platform} {k : Nat} (h : p.stepAt k = some q) :
    ∃ s s', p[k]? = some s ∧ step s = .next s' ∧ q = p.set k s' := by
  unfold Platform.stepAt at h
  split at h
  · cases h
  · rename_i s hs
    split at h
    · rename_i s' hstep
      exact ⟨s, s', hs, hstep, (Option.some.inj h).symm⟩
    · cases h
    · cases h

/-- Settles O59: the step replaces element k of the list of blocks by its next state. -/
theorem blocksShareNothing : Obligations.BlocksShareNothing := by
  unfold Obligations.BlocksShareNothing
  intro p q k h
  obtain ⟨s, s', hs, hstep, rfl⟩ := Platform.stepAt_some h
  have hk : k < p.length := (List.getElem?_eq_some_iff.1 hs).1
  exact ⟨List.length_set, fun j hj => List.getElem?_set_ne hj.symm, s, s', hs, hstep,
    List.getElem?_set_self hk⟩

end Sys2Proof.Machine

/-! PROOFS. Reset (70_reset_and_hazards.md): the step an arriving reset takes, and what registers and buffer elements
read after it. -/

namespace Sys2Proof.Machine

/-- An arriving reset comes before the core and the host (70_reset_and_hazards.md R310; log 3). -/
theorem step_reset {s : State} (h : s.resetArrives = true) : step s = .next s.takeReset := by
  rcases step_cases s with ⟨-, hreset⟩ | ⟨⟨hno, -⟩, -⟩ | ⟨hno, -⟩
  · exact hreset
  · simp [h] at hno
  · simp [h] at hno

/-- STATUS is 0 in IDLE with the result state Empty(NONE) (10_state.md R26, R27). -/
theorem statusWord_idle : statusWord false false (ResultState.empty .none) = 0 := by decide

/-- After reset a register reads 0, or MAX_LEN where it is MAXLEN (10_state.md R48). -/
theorem takeReset_regRead (s : State) (r : Reg) :
    s.takeReset.regRead r = (if r = .maxLen then BitVec.ofNat 32 s.params.maxLen else 0, s.takeReset) := by
  rw [regRead_idle rfl]
  congr 1
  cases r with
  | status => exact statusWord_idle
  | _ => rfl

/-- The symbols of IN_BUF after reset are those of the reset's draw (10_state.md R48; log 5). -/
theorem takeReset_inputSymbol (s : State) (k : Nat) : s.takeReset.inputSymbol k = resetSymbol s.draws k :=
  State.resetWith_inputSymbol s.params s.draws k

/-- Before the first completion since reset a result element within capacity reads its reset value
(93_implementation_defined.md I11; log 6). -/
theorem bufRead_before_completion {s : State} {e : ElemRef} (hb : s.busy = false)
    (hresult : s.result = ResultState.empty .none) (hcap : elemExists s.params e = true)
    (he : ∀ k, e ≠ .elem .inBuf k) :
    s.bufRead e = (unspecifiedElem e (Config.resetElement s.resetDraw e), s) := by
  have hinvalid : s.result.elem e = none := by rw [hresult, empty_elem]
  have hcode : s.result.code = .none := by rw [hresult]; rfl
  simp [State.bufRead, hcap, readElem_result he, hb, State.readResultElem, hinvalid, hcode]

/-- After reset every element within capacity reads the value of its own in the reset's draw (70_reset_and_hazards.md
R310; log 5). -/
theorem takeReset_bufRead (s : State) {e : ElemRef} (hcap : elemExists s.takeReset.params e = true) :
    s.takeReset.bufRead e = (unspecifiedElem e (Config.resetElement s.draws e), s.takeReset) := by
  by_cases he : ∃ k, e = .elem .inBuf k
  · obtain ⟨k, rfl⟩ := he
    rw [bufRead_inBuf (of_decide_eq_true hcap), takeReset_inputSymbol]
    rfl
  · exact bufRead_before_completion rfl rfl hcap fun k hk => he ⟨k, hk⟩

/-- Settles O54: the reset moves first, and each piece of the state it leaves is a reset value. -/
theorem resetSetsEverything : Obligations.ResetSetsEverything := by
  unfold Obligations.ResetSetsEverything
  intro s h
  exact ⟨s.takeReset, step_reset h, rfl, rfl, rfl, rfl, rfl, rfl, rfl, takeReset_regRead s,
    fun _ => takeReset_bufRead s⟩

end Sys2Proof.Machine
